-- ==== Sys2Proof/Word.lean ====
section
/-! DEFINITION. The one data width of the core: the byte. -/

namespace Sys2Proof

/-- A byte, an integer in [0,255] (00_scope.md R9 `BYTE`, R10). Registers, memory cells, operands and
output items are bytes; `BitVec` arithmetic is arithmetic modulo 256. -/
abbrev Byte := BitVec 8

end Sys2Proof
end

