-- ==== Sys2Proof/Config.lean ====
section
/-! DEFINITION. The fixed implementation parameters of 00_scope.md R9. The two parameters the spec leaves
OPEN with a default stand where a repair can mend them: `OPCODE_MAP` in Decode.lean, `SP_INIT` in
Machine/Params.lean. The core has no free value: 93_implementation_defined.md leaves no behaviour open. -/

namespace Sys2Proof.Config

/-- `MEM_SIZE`: addresses 0 to 255 (R9, R60). -/
abbrev memSize : Nat := 256

/-- `NREGS`: register indices 0 to 7 (R9, R30). -/
abbrev nregs : Nat := 8

/-- `PC_RESET`, the entry point (R9, R37, R68). -/
abbrev pcReset : Nat := 0

end Sys2Proof.Config
end

