-- ==== Sys2Proof/Syntax.lean ====
section
/-! DEFINITION. The 14 instructions (30_encoding.md R93): the enumerated opcode type R96 asks for, and the
instruction with its operand bytes. An operand is the WHOLE byte, never masked (R92), so a register operand
above 7 is an instruction of this type; R98 makes it an execution fault, not a decode fault. -/

namespace Sys2Proof

/-- The enumerated opcode type of 30_encoding.md R96: one constructor per row of R93. -/
inductive Opcode
  | hlt | ldi | prn | add | sub | mul | cmp | jmp | jeq | jne | push | pop | call | ret
deriving DecidableEq, Repr

/-- An instruction: one constructor per row of spec/opcode_table.json, with its operand bytes `a` (at pc+1)
and `b` (at pc+2) as 30_encoding.md R92 lists them. -/
inductive Instr
  /-- R140 HLT. -/
  | hlt
  /-- R141 LDI: `a` destination register, `b` immediate. -/
  | ldi (a b : Byte)
  /-- R142 PRN: `a` source register. -/
  | prn (a : Byte)
  /-- R155 ADD: `a` source and destination, `b` source register. -/
  | add (a b : Byte)
  /-- R156 SUB: `a` minuend and destination, `b` subtrahend register. -/
  | sub (a b : Byte)
  /-- R157 MUL: `a` factor and destination, `b` factor register. -/
  | mul (a b : Byte)
  /-- R158 CMP: `a`, `b` the registers compared. -/
  | cmp (a b : Byte)
  /-- R170 JMP: `a` register holding the target. -/
  | jmp (a : Byte)
  /-- R171 JEQ: `a` register holding the target. -/
  | jeq (a : Byte)
  /-- R172 JNE: `a` register holding the target. -/
  | jne (a : Byte)
  /-- R182 PUSH: `a` source register. -/
  | push (a : Byte)
  /-- R183 POP: `a` destination register. -/
  | pop (a : Byte)
  /-- R184 CALL: `a` register holding the target. -/
  | call (a : Byte)
  /-- R185 RET. -/
  | ret
deriving DecidableEq, Repr

end Sys2Proof
end

