-- ==== Sys2Proof/WellFormed.lean ====
section
/-! DEFINITION. Which instructions are well formed: those whose every register operand names one of the
eight registers (10_state.md R30), which are exactly those assembler text can spell (30_encoding.md R100: "An
operand register index above 7 cannot be written in this syntax; it exists only in machine code"). Every
operand byte is legal as an ENCODING (R98), so decoding does not require this check: an ill-formed instruction
decodes and executes, and faults when it reads the register (R12). Log entry 19. -/

namespace Sys2Proof

/-- A byte that names a general register, 0 to 7 (R12, R30). -/
def isRegIndex (a : Byte) : Bool := decide (a.toNat < Config.nregs)

/-- The operands of an instruction that are register indices (R92). The immediate `b` of LDI is not one. -/
def Instr.regOperands : Instr → List Byte
  | .hlt => []
  | .ldi a _ => [a]
  | .prn a => [a]
  | .add a b => [a, b]
  | .sub a b => [a, b]
  | .mul a b => [a, b]
  | .cmp a b => [a, b]
  | .jmp a => [a]
  | .jeq a => [a]
  | .jne a => [a]
  | .push a => [a]
  | .pop a => [a]
  | .call a => [a]
  | .ret => []

/-- Every register operand names a register. -/
def Instr.wellFormed (i : Instr) : Bool := i.regOperands.all isRegIndex

end Sys2Proof
end

