-- ==== Sys2Proof/Decode.lean ====
section
/-! DEFINITION. Decoding and encoding (30_encoding.md). Decoding is total: it answers an instruction and the
bytes after it, or a rejection by name. It looks at the opcode byte alone to select the instruction (R95,
R97). The opcode values are the parameter `OPCODE_MAP` (92_eei_decisions.md D1): every definition here takes
it as an argument, and `opcodeMap` is the default of R93. -/

namespace Sys2Proof

/-- `OPCODE_MAP`, the parameter: the opcode byte of each of the 14 instructions (R9, D1). -/
abbrev OpcodeMap := Opcode → Byte

/-- D1: the map is injective. -/
def OpcodeMap.Injective (m : OpcodeMap) : Prop := ∀ o o' : Opcode, m o = m o' → o = o'

/-- The default `OPCODE_MAP` of 30_encoding.md R93. PRESUMED: the spec takes these values from general
knowledge of LS-8, not from its source (93_implementation_defined.md G1; log entry 1). -/
def opcodeMap : OpcodeMap
  | .hlt => 0x01
  | .ldi => 0x82
  | .prn => 0x47
  | .add => 0xA0
  | .sub => 0xA1
  | .mul => 0xA2
  | .cmp => 0xA7
  | .jmp => 0x54
  | .jeq => 0x55
  | .jne => 0x56
  | .push => 0x45
  | .pop => 0x46
  | .call => 0x50
  | .ret => 0x11

/-- The rows of R93 in the table's order. -/
def Opcode.all : List Opcode :=
  [.hlt, .ldi, .prn, .add, .sub, .mul, .cmp, .jmp, .jeq, .jne, .push, .pop, .call, .ret]

/-- The operand count of each row (R90, R93). -/
def Opcode.operandCount : Opcode → Nat
  | .hlt => 0
  | .ldi => 2
  | .prn => 1
  | .add => 2
  | .sub => 2
  | .mul => 2
  | .cmp => 2
  | .jmp => 1
  | .jeq => 1
  | .jne => 1
  | .push => 1
  | .pop => 1
  | .call => 1
  | .ret => 0

/-- The instruction length: 1 + operand count bytes (R90). -/
def Opcode.length (o : Opcode) : Nat := 1 + o.operandCount

/-- The instruction an opcode makes with the operand bytes `a` (at pc+1) and `b` (at pc+2); the ones its
format does not have are ignored (R91). -/
def Opcode.build (o : Opcode) (a b : Byte) : Instr :=
  match o with
  | .hlt => .hlt
  | .ldi => .ldi a b
  | .prn => .prn a
  | .add => .add a b
  | .sub => .sub a b
  | .mul => .mul a b
  | .cmp => .cmp a b
  | .jmp => .jmp a
  | .jeq => .jeq a
  | .jne => .jne a
  | .push => .push a
  | .pop => .pop a
  | .call => .call a
  | .ret => .ret

/-- Decode of the opcode byte (R95): one of the 14 instructions, or `none` for "no table entry". Each row is
an exact match on all 8 bits (R93); the informative bit fields of R94 are not decoded. -/
def decodeOpcode (m : OpcodeMap) (op : Byte) : Option Opcode :=
  Opcode.all.find? fun o => m o == op

/-- Why a byte sequence is no instruction. -/
inductive DecodeError
  /-- The opcode byte has no table entry (R99). -/
  | invalidOpcode (op : Byte)
  /-- The sequence ends before the instruction does. The machine never sees this: fetch supplies three bytes
  or faults with AddressOutOfRange (R122). -/
  | truncated
deriving DecidableEq, Repr

/-- Decode the first instruction of a byte sequence and answer the bytes after it (R90, R97). -/
def decode (m : OpcodeMap) (bytes : List Byte) : Except DecodeError (Instr × List Byte) :=
  match bytes with
  | [] => .error .truncated
  | op :: rest =>
    match decodeOpcode m op with
    | none => .error (.invalidOpcode op)
    | some o =>
      match o.operandCount, rest with
      | 0, rest => .ok (o.build 0 0, rest)
      | 1, a :: rest => .ok (o.build a 0, rest)
      | 2, a :: b :: rest => .ok (o.build a b, rest)
      | _, _ => .error .truncated

/-- The opcode of an instruction (R93). -/
def Instr.opcode : Instr → Opcode
  | .hlt => .hlt
  | .ldi _ _ => .ldi
  | .prn _ => .prn
  | .add _ _ => .add
  | .sub _ _ => .sub
  | .mul _ _ => .mul
  | .cmp _ _ => .cmp
  | .jmp _ => .jmp
  | .jeq _ => .jeq
  | .jne _ => .jne
  | .push _ => .push
  | .pop _ => .pop
  | .call _ => .call
  | .ret => .ret

/-- The operand bytes of an instruction in the order they are stored (R91). -/
def Instr.operands : Instr → List Byte
  | .hlt => []
  | .ldi a b => [a, b]
  | .prn a => [a]
  | .add a b => [a, b]
  | .sub a b => [a, b]
  | .mul a b => [a, b]
  | .cmp a b => [a, b]
  | .jmp a => [a]
  | .jeq a => [a]
  | .jne a => [a]
  | .push a => [a]
  | .pop a => [a]
  | .call a => [a]
  | .ret => []

/-- The length of an instruction in bytes (R90): the distance its advance moves the pc. -/
def Instr.length (i : Instr) : Nat := i.opcode.length

/-- The bytes of an instruction: the opcode byte, then its operand bytes (R90, R91). -/
def encode (m : OpcodeMap) (i : Instr) : List Byte := m i.opcode :: i.operands

/-- The three bytes of an instruction word numbered as spec/opcode_table.json numbers it (bit 0 is the least
significant bit of the first byte), the bits from `nbits` up taken as 0. Three bytes are the longest
instruction (R90) and what every fetch reads (R91). -/
def tableBytes (nbits w : Nat) : List Byte :=
  let w := w % 2 ^ nbits
  [BitVec.ofNat 8 w, BitVec.ofNat 8 (w / 256), BitVec.ofNat 8 (w / 65536)]

/-- The instruction the decoder reads from a word of spec/opcode_table.json, under the default map. -/
def decodeTableWord (nbits w : Nat) : Option Instr :=
  match decode opcodeMap (tableBytes nbits w) with
  | .ok (i, _) => some i
  | .error _ => none

end Sys2Proof
end

