-- ==== Sys2Proof/Machine/Params.lean ====
section
/-! DEFINITION. The default of the parameter `SP_INIT` (00_scope.md R9, 92_eei_decisions.md D5). -/

namespace Sys2Proof.Machine

/-- `SP_INIT`, default 244 (0xF4): the reset value of the stack pointer. The source gives it only as an
example ("e.g., 244"); the spec keeps it as a named parameter with this default (D5; log entry 2). -/
def spInit : Byte := 0xF4

end Sys2Proof.Machine
end

