-- ==== Sys2Proof/Machine/State.lean ====
section
/-! DEFINITION. The state of the core: the tuple `(x[0..7], pc, fl, M[0..255], out, run)` of 10_state.md,
"Nothing else is state". -/

namespace Sys2Proof.Machine

/-- The flags register's four values (10_state.md R38). They are abstract: no instruction exposes a bit
encoding (92_eei_decisions.md D6; log entry 4). -/
inductive Flags
  /-- `NONE`: "no comparison yet". -/
  | none
  /-- `EQ`: Equal. -/
  | eq
  /-- `LT`: Less-Than. -/
  | lt
  /-- `GT`: Greater-Than. -/
  | gt
deriving DecidableEq, Repr

/-- The four fault kinds, in the order of 60_exceptions.md R201 (D18). They are the spec's own faults, values
of the run state; each docstring says what raises it. -/
inductive FaultKind
  /-- "memory or stack access beyond [0,255]": opcode or operand fetch, PUSH and CALL at sp = 0, POP and RET at
  sp = 255. -/
  | addressOutOfRange
  /-- "register index outside [0,7]": a register operand above 7 when it is accessed. -/
  | invalidRegister
  /-- "ALU requested an op it doesn't implement": the ALU alone; no instruction (42_alu.md R151). -/
  | unsupportedOperation
  /-- "fetched byte matches no table entry": decode. -/
  | invalidOpcode
deriving DecidableEq, Repr

/-- The run state (10_state.md R39). `faulted kind p` records the fault kind and the reported pc. -/
inductive RunState
  | running
  | halted
  | faulted (kind : FaultKind) (pc : Nat)
deriving DecidableEq, Repr

/-- Memory as plain data: (address, byte) pairs in the canonical form `Memory.wf` (Machine/Ops.lean): addresses
strictly rising, all below 256, no entry equal to `unlistedByte`. DESIGN CHOICE (log entry 5). -/
abbrev Memory := List Host.Cell

/-- The state of the core (10_state.md). -/
structure State where
  /-- `x[0]` to `x[7]`, 8 bits each; `x[7]` is the stack pointer (R30, R32). -/
  regs : Vector Byte 8
  /-- The program counter, a non-negative integer that is never wrapped (R35, R36; D4, log entry 3). -/
  pc : Nat
  /-- The flags register (R38). -/
  fl : Flags
  /-- The 256 bytes of memory (20_memory.md R60). -/
  mem : Memory
  /-- The output sequence, oldest byte first (R42). -/
  out : List Byte
  /-- The run state (R39). -/
  run : RunState
deriving DecidableEq, Repr

/-- Why the dispatcher has no step. `step` alone raises these, in a terminal state; no instruction's meaning
does. Safe: 40_dispatch.md R120 gives a terminal state no step, and the model stops there too. The reason is
what the run interface surfaces (R129). DESIGN CHOICE (log entry 15). A fault of the SPEC is not one of these: it
is a next state whose `run` is `faulted` (log entry 21). -/
inductive Fault
  /-- `run = Halted`: the run ended with HLT. Raised by `step`. Safe. -/
  | runHalted
  /-- `run = Faulted(kind, p)`: the run ended with that fault. Raised by `step`. Safe. -/
  | runFaulted (kind : FaultKind) (pc : Nat)
deriving DecidableEq, Repr

/-- Why the model gives no meaning. Nothing raises it: every instruction has its meaning. -/
inductive Refusal
  /-- An instruction rejected by name in `exec`; no arm does so. Safe. -/
  | notModelled (mnemonic : String)
deriving DecidableEq, Repr

/-- The state after construction with a given `SP_INIT` and an empty memory (70_reset_and_hazards.md R230):
registers 0 but `x[7]`, pc 0, flags NONE, memory all zero, no output, Running. -/
def State.construct (spInit : Byte) : State where
  regs := #v[0, 0, 0, 0, 0, 0, 0, spInit]
  pc := Config.pcReset
  fl := .none
  mem := []
  out := []
  run := .running

/-- The state right after reset, which is construction with the default `SP_INIT` (R230). -/
def State.reset : State := State.construct spInit

end Sys2Proof.Machine
end

