-- ==== Sys2Proof/Machine/Ops.lean ====
section
/-! DEFINITION. The named operations of 00_scope.md R12 to R15: checked memory and register accesses, the
checked stack-pointer updates, `emit`, `halt`, the pc's advance and redirection, and `raise`. A checked
operation answers `Except FaultKind`; a meaning runs it through `attempt`, which raises its fault on the state
the instruction began in. -/

namespace Sys2Proof.Machine

/-- What one instruction or one step answers. -/
abbrev Result := Host.Outcome State Fault Refusal

/-- What a byte nothing has written holds: 0, the spec's content after construction (20_memory.md R69, "all
memory zeroed"). -/
def unlistedByte : Byte := 0

/-- `M[a]`, the byte held at address `a` (R11); addresses beyond the memory are refused by `memRead`. -/
def Memory.byte : Memory → Nat → Byte
  | [], _ => unlistedByte
  | (k, v) :: rest, a => if k = a then v else Memory.byte rest a

/-- Put byte `v` at address `a`, keeping the canonical form. -/
def Memory.set : Memory → Nat → Byte → Memory
  | [], a, v => if v = unlistedByte then [] else [(a, v)]
  | (k, w) :: rest, a, v =>
    if a < k then (if v = unlistedByte then (k, w) :: rest else (a, v) :: (k, w) :: rest)
    else if a = k then (if v = unlistedByte then rest else (a, v) :: rest)
    else (k, w) :: Memory.set rest a v

/-- The canonical form from address `lo` up: addresses strictly rising, inside [0,255], no `unlistedByte`. -/
def Memory.wfFrom : Nat → Memory → Bool
  | _, [] => true
  | lo, (k, v) :: rest =>
    decide (lo ≤ k) && decide (k < Config.memSize) && decide (v ≠ unlistedByte) && Memory.wfFrom (k + 1) rest

/-- The canonical form of memory. -/
def Memory.wf (m : Memory) : Bool := Memory.wfFrom 0 m

/-- Place bytes at consecutive addresses from `a` up. -/
def Memory.setBytes (m : Memory) (a : Nat) : List Byte → Memory
  | [] => m
  | v :: rest => Memory.setBytes (Memory.set m a v) (a + 1) rest

/-- `pc <- target` (R15). -/
def State.setPc (s : State) (target : Nat) : State := { s with pc := target }

/-- `fl <- f`. -/
def State.setFl (s : State) (f : Flags) : State := { s with fl := f }

/-- `run <- r`. -/
def State.setRun (s : State) (r : RunState) : State := { s with run := r }

/-- Replace the memory. -/
def State.setMem (s : State) (m : Memory) : State := { s with mem := m }

/-- Register `i` takes `v` (R12; the value is a byte, so R33's reduction is the type's). -/
def State.setReg (s : State) (i : Nat) (v : Byte) (h : i < 8) : State := { s with regs := s.regs.set i v h }

/-- `emit(v)`: append `v` to the end of `out` (R15). -/
def State.emit (s : State) (v : Byte) : State := { s with out := s.out ++ [v] }

/-- `pc <- pc + n`, plain integer addition, never wrapped (40_dispatch.md R125). -/
def State.advance (s : State) (n : Nat) : State := s.setPc (s.pc + n)

/-- `sp`, a name for `x[7]`: the same storage (10_state.md R32). -/
def State.sp (s : State) : Byte := s.regs[7]

/-- `sp <- v`. -/
def State.setSp (s : State) (v : Byte) : State := s.setReg 7 v (by decide)

/-- `raise E(p)` with p the pc of the instruction's opcode byte (R14, R130, 60_exceptions.md R200, R202): taking a
fault. Applied to the state the step began in, so that every assignment of the instruction is discarded and
only `run` changes (D9, log entry 8). There is no trap entry and no return from a fault (R205, R206). -/
def State.raised (s : State) (e : FaultKind) : State := s.setRun (.faulted e s.pc)

/-- Taking a fault as the answer of an instruction: a next state, since `Faulted` is a value of the state
(DESIGN CHOICE, log entry 21). -/
def raise (s : State) (e : FaultKind) : Result := .next (s.raised e)

/-- Go on with the value of a checked operation, or raise its fault on `s0`, the state the instruction began in
(R14). -/
def attempt {α : Type} (s0 : State) (x : Except FaultKind α) (k : α → Result) : Result :=
  match x with
  | .ok v => k v
  | .error e => raise s0 e

/-- `MemRead(a, 1)` (R13): AddressOutOfRange outside [0,255]. -/
def memRead (s : State) (a : Nat) : Except FaultKind Byte :=
  if a < Config.memSize then .ok (s.mem.byte a) else .error .addressOutOfRange

/-- `MemWrite(a, 1, v)` (R13): AddressOutOfRange outside [0,255]. -/
def memWrite (s : State) (a : Nat) (v : Byte) : Except FaultKind State :=
  if a < Config.memSize then .ok (s.setMem (s.mem.set a v)) else .error .addressOutOfRange

/-- Checked register read `x[i]` (R12): the index is the whole operand byte, never masked. -/
def readReg (s : State) (i : Byte) : Except FaultKind Byte :=
  if h : i.toNat < 8 then .ok s.regs[i.toNat] else .error .invalidRegister

/-- Checked register write `x[i] <- v` (R12). -/
def writeReg (s : State) (i : Byte) (v : Byte) : Except FaultKind State :=
  if h : i.toNat < 8 then .ok (s.setReg i.toNat v h) else .error .invalidRegister

/-- `SPDec()` (44_stack_call.md R180): AddressOutOfRange when `x[7] - 1 < 0`, else `x[7] <- x[7] - 1` (D8, log
entry 7). -/
def spDec (s : State) : Except FaultKind State :=
  if s.sp.toNat < 1 then .error .addressOutOfRange else .ok (s.setSp (BitVec.ofNat 8 (s.sp.toNat - 1)))

/-- `SPInc()` (R180): AddressOutOfRange when `x[7] + 1 > 255`, else `x[7] <- x[7] + 1`. -/
def spInc (s : State) : Except FaultKind State :=
  if s.sp.toNat + 1 > 255 then .error .addressOutOfRange else .ok (s.setSp (BitVec.ofNat 8 (s.sp.toNat + 1)))

end Sys2Proof.Machine
end

