-- ==== Sys2Proof/Machine/Operands.lean ====
section
/-! DEFINITION. The operand forms of 30_encoding.md R92: a register read for its value, a register holding a
branch target, an 8-bit immediate. (The register destination is `writeReg`.) -/

namespace Sys2Proof.Machine

/-- A source register operand: the value of `x[a]` (R92, R12). -/
def srcOperand (s : State) (a : Byte) : Except FaultKind Byte := readReg s a

/-- A target operand: the value of `x[a]` used as an absolute address, 0 to 255 (43_branch.md R169). -/
def targetOperand (s : State) (a : Byte) : Except FaultKind Nat := (readReg s a).map BitVec.toNat

/-- The immediate operand, `b` of LDI: used as it is, no extension, shift or scaling (R92). -/
def immOperand (b : Byte) : Byte := b

/-- `pc <- x[a]`: redirect to a target operand. `s0` is the state the instruction began in, `s` the state the
register is read in. -/
def jumpTo (s0 s : State) (a : Byte) : Result :=
  attempt s0 (targetOperand s a) fun t => .next (s.setPc t)

end Sys2Proof.Machine
end

