-- ==== Sys2Proof/Machine/Flags.lean ====
section
/-! DEFINITION. The ALU (42_alu.md R150 to R154): a stateless function of a selector and two bytes, giving a
result byte or a flags value. -/

namespace Sys2Proof.Machine

/-- The operation selector of R150. `other` stands for every selector the ALU does not implement; the
dispatcher never requests one (R151, log entry 20). -/
inductive AluOp
  | add | sub | mul | cmp
  | other (code : Nat)
deriving DecidableEq, Repr

/-- What the ALU produces: "a result or setting flags" (R150). -/
inductive AluOut
  | result (r : Byte)
  | flags (f : Flags)
deriving DecidableEq, Repr

/-- The flags of a compare: the bytes compared as unsigned integers 0 to 255, first against second (R154,
92_eei_decisions.md D7; log entry 6). -/
def compareFlags (u v : Byte) : Flags :=
  if u.toNat = v.toNat then .eq else if u.toNat < v.toNat then .lt else .gt

/-- `ALU(op, u, v)` (R150). The exact sum, difference or product is reduced modulo 256 (R152). -/
def alu (op : AluOp) (u v : Byte) : Except FaultKind AluOut :=
  match op with
  | .add => .ok (.result (BitVec.ofNat 8 (u.toNat + v.toNat)))
  | .sub => .ok (.result (BitVec.ofInt 8 ((u.toNat : Int) - (v.toNat : Int))))
  | .mul => .ok (.result (BitVec.ofNat 8 (u.toNat * v.toNat)))
  | .cmp => .ok (.flags (compareFlags u v))
  | .other _ => .error .unsupportedOperation

/-- Where an ALU output goes: a result to the first operand's register, flags to `fl` (R155 to R158). -/
def writeAluOut (s : State) (a : Byte) : AluOut → Except FaultKind State
  | .result r => writeReg s a r
  | .flags f => .ok (s.setFl f)

/-- The shape R155 to R158 share: read `x[a]`, then `x[b]`, apply the ALU, write its output, advance by 3. -/
def aluInstr (op : AluOp) (a b : Byte) (s : State) : Result :=
  attempt s (srcOperand s a) fun u =>
  attempt s (srcOperand s b) fun v =>
  attempt s (alu op u v) fun out =>
  attempt s (writeAluOut s a out) fun s1 =>
  .next (s1.advance 3)

end Sys2Proof.Machine
end

