-- ==== Sys2Proof/Machine/Alu.lean ====
section
/-! DEFINITION. ADD, SUB, MUL, CMP (42_alu.md R155 to R158). -/

namespace Sys2Proof.Machine

/-- R155 ADD: `x[a] <- (x[a] + x[b]) mod 256; pc <- pc + 3`. -/
def execAdd (a b : Byte) (s : State) : Result := aluInstr .add a b s

/-- R156 SUB: `x[a] <- (x[a] - x[b]) mod 256; pc <- pc + 3`. -/
def execSub (a b : Byte) (s : State) : Result := aluInstr .sub a b s

/-- R157 MUL: `x[a] <- (x[a] * x[b]) mod 256; pc <- pc + 3`. -/
def execMul (a b : Byte) (s : State) : Result := aluInstr .mul a b s

/-- R158 CMP: `fl <- EQ, LT or GT; pc <- pc + 3`. -/
def execCmp (a b : Byte) (s : State) : Result := aluInstr .cmp a b s

end Sys2Proof.Machine
end

