-- ==== Sys2Proof/Machine/Branch.lean ====
section
/-! DEFINITION. Branches: JMP, JEQ, JNE (43_branch.md). Absolute, through a register, no delay slot (R169). -/

namespace Sys2Proof.Machine

/-- R170 JMP: `pc <- x[a]`. -/
def execJmp (a : Byte) (s : State) : Result := jumpTo s s a

/-- R171 JEQ: `if fl = EQ then pc <- x[a] else pc <- pc + 2`. Not taken, `x[a]` is not read (D11; log entry 11). -/
def execJeq (a : Byte) (s : State) : Result :=
  if s.fl = .eq then jumpTo s s a else .next (s.advance 2)

/-- R172 JNE: `if fl ≠ EQ then pc <- x[a] else pc <- pc + 2`. -/
def execJne (a : Byte) (s : State) : Result :=
  if s.fl ≠ .eq then jumpTo s s a else .next (s.advance 2)

end Sys2Proof.Machine
end

