-- ==== Sys2Proof/Machine/ControlIo.lean ====
section
/-! DEFINITION. Machine control, immediate load and output: HLT, LDI, PRN (41_control_io.md). -/

namespace Sys2Proof.Machine

/-- R140 HLT: `run <- Halted`; the pc stays at the HLT byte (D12; log entry 12). -/
def execHlt (s : State) : Result := .next (s.setRun .halted)

/-- R141 LDI: `x[a] <- b; pc <- pc + 3`. -/
def execLdi (a b : Byte) (s : State) : Result :=
  attempt s (writeReg s a (immOperand b)) fun s1 => .next (s1.advance 3)

/-- R142 PRN: `emit(x[a]); pc <- pc + 2`. -/
def execPrn (a : Byte) (s : State) : Result :=
  attempt s (srcOperand s a) fun v => .next ((s.emit v).advance 2)

end Sys2Proof.Machine
end

