-- ==== Sys2Proof/Machine/Stack.lean ====
section
/-! DEFINITION. Stack and subroutine call: PUSH, POP, CALL, RET (44_stack_call.md). Statements run in the
pseudocode's order, so a read after `SPDec()` sees the decremented stack pointer (00_scope.md R14). -/

namespace Sys2Proof.Machine

/-- The return address CALL pushes, `pc + 2` as one byte (R184): at most 255 whenever a step reaches CALL, since
its operand fetch succeeded (log entry 14). -/
def returnAddress (s : State) : Byte := BitVec.ofNat 8 (s.pc + 2)

/-- R182 PUSH: `SPDec(); MemWrite(x[7], 1, x[a]); pc <- pc + 2`. -/
def execPush (a : Byte) (s : State) : Result :=
  attempt s (spDec s) fun s1 =>
  attempt s (srcOperand s1 a) fun v =>
  attempt s (memWrite s1 s1.sp.toNat v) fun s2 =>
  .next (s2.advance 2)

/-- R183 POP: `v <- MemRead(x[7], 1); x[a] <- v; SPInc(); pc <- pc + 2`. -/
def execPop (a : Byte) (s : State) : Result :=
  attempt s (memRead s s.sp.toNat) fun v =>
  attempt s (writeReg s a v) fun s1 =>
  attempt s (spInc s1) fun s2 =>
  .next (s2.advance 2)

/-- R184 CALL: `SPDec(); MemWrite(x[7], 1, pc + 2); pc <- x[a]`. -/
def execCall (a : Byte) (s : State) : Result :=
  attempt s (spDec s) fun s1 =>
  attempt s (memWrite s1 s1.sp.toNat (returnAddress s1)) fun s2 =>
  jumpTo s s2 a

/-- R185 RET: `t <- MemRead(x[7], 1); SPInc(); pc <- t`. -/
def execRet (s : State) : Result :=
  attempt s (memRead s s.sp.toNat) fun t =>
  attempt s (spInc s) fun s1 =>
  .next (s1.setPc t.toNat)

end Sys2Proof.Machine
end

