-- ==== Sys2Proof/Machine/Fetch.lean ====
section
/-! DEFINITION. Fetch and decode (40_dispatch.md R121, R122): the opcode byte at pc, decoded at once; then the
bytes at pc+1 and pc+2, read for every instruction whatever its length. And where the next instruction is
placed for `State.withFetchWord`. -/

namespace Sys2Proof.Machine

/-- The instruction at the pc, or the fault of its fetch: AddressOutOfRange of the opcode byte, then
InvalidOpcode, then AddressOutOfRange of an operand byte (R203; D3, log entry 10). -/
def fetch (m : OpcodeMap) (s : State) : Except FaultKind Instr :=
  match memRead s s.pc with
  | .error e => .error e
  | .ok op =>
    match decodeOpcode m op with
    | none => .error .invalidOpcode
    | some o =>
      match memRead s (s.pc + 1) with
      | .error e => .error e
      | .ok a =>
        match memRead s (s.pc + 2) with
        | .error e => .error e
        | .ok b => .ok (o.build a b)

/-- The highest address at which an instruction can be fetched: its opcode byte lies at 0 to 253 (R66, R122). -/
def lastFetchAddress : Nat := 253

/-- Where `State.withFetchWord` places the instruction: at the pc; at the entry point 0 where no instruction
can be fetched at the pc (log entry 18). -/
def placeAddress (s : State) : Nat := if s.pc ≤ lastFetchAddress then s.pc else Config.pcReset

/-- The state in which the given bytes stand where the next instruction is fetched, and a step runs it. -/
def placeBytes (s : State) (bytes : List Byte) : State :=
  ((s.setMem (s.mem.setBytes (placeAddress s) bytes)).setPc (placeAddress s)).setRun .running

end Sys2Proof.Machine
end

