-- ==== Sys2Proof/Machine/Step.lean ====
section
/-! DEFINITION. One step of the dispatcher (40_dispatch.md R120, R126). -/

namespace Sys2Proof.Machine

/-- One step under a given `OPCODE_MAP`: only in `Running` (R120); a fetch fault is raised, else the fetched
instruction is executed (R126). In a terminal state there is no step (log entry 15). -/
def stepWith (m : OpcodeMap) (s : State) : Host.Outcome State Fault Refusal :=
  match s.run with
  | .halted => .fault .runHalted
  | .faulted k p => .fault (.runFaulted k p)
  | .running =>
    match fetch m s with
    | .error e => raise s e
    | .ok i => exec i s

/-- One step of the core, under the default `OPCODE_MAP`. -/
def step (s : State) : Host.Outcome State Fault Refusal := stepWith opcodeMap s

/-- `s` with an instruction word of spec/opcode_table.json placed where the next step fetches it (log entry 18). -/
def State.withFetchWord (s : State) (nbits w : Nat) : State := placeBytes s (tableBytes nbits w)

end Sys2Proof.Machine
end

