-- ==== Sys2Proof/Machine/AsmText.lean ====
section
/-! DEFINITION. Assembler text (30_encoding.md R100): one instruction a line. Characters are a `List Char`. -/

namespace Sys2Proof

/-- The mnemonic, in upper case (R100). -/
def Opcode.mnemonic : Opcode → List Char
  | .hlt => ['H', 'L', 'T']
  | .ldi => ['L', 'D', 'I']
  | .prn => ['P', 'R', 'N']
  | .add => ['A', 'D', 'D']
  | .sub => ['S', 'U', 'B']
  | .mul => ['M', 'U', 'L']
  | .cmp => ['C', 'M', 'P']
  | .jmp => ['J', 'M', 'P']
  | .jeq => ['J', 'E', 'Q']
  | .jne => ['J', 'N', 'E']
  | .push => ['P', 'U', 'S', 'H']
  | .pop => ['P', 'O', 'P']
  | .call => ['C', 'A', 'L', 'L']
  | .ret => ['R', 'E', 'T']

/-- The registers' names, `R0` to `R7` (R100). -/
def regNames : List (List Char × Byte) :=
  [(['R', '0'], 0), (['R', '1'], 1), (['R', '2'], 2), (['R', '3'], 3),
   (['R', '4'], 4), (['R', '5'], 5), (['R', '6'], 6), (['R', '7'], 7)]

/-- The text of a register operand; none for an index above 7, which has no spelling (R100). -/
def regText (a : Byte) : Option (List Char) := (regNames.find? fun p => p.2 == a).map Prod.fst

/-- The register a text names. -/
def parseReg (t : List Char) : Option Byte := (regNames.find? fun p => p.1 == t).map Prod.snd

/-- The value of a digit character; letters stand for 10 to 15 in either case (log entry 17). -/
def digitValue (c : Char) : Option Nat :=
  if '0' ≤ c ∧ c ≤ '9' then some (c.toNat - '0'.toNat)
  else if 'a' ≤ c ∧ c ≤ 'f' then some (c.toNat - 'a'.toNat + 10)
  else if 'A' ≤ c ∧ c ≤ 'F' then some (c.toNat - 'A'.toNat + 10)
  else none

/-- The value of digits in a base, on top of `acc`. -/
def parseDigits (base acc : Nat) : List Char → Option Nat
  | [] => some acc
  | c :: rest =>
    match digitValue c with
    | some d => if d < base then parseDigits base (base * acc + d) rest else none
    | none => none

/-- A number of at least one digit. -/
def parseNumber (base : Nat) : List Char → Option Nat
  | [] => none
  | c :: rest => parseDigits base 0 (c :: rest)

/-- An immediate: decimal, `0x` hexadecimal or `0b` binary, 0 to 255 (R100); leading zeros are accepted (DESIGN CHOICE,
log entry 17). -/
def parseImm (t : List Char) : Option Byte :=
  let n := match t with
    | '0' :: 'x' :: ds => parseNumber 16 ds
    | '0' :: 'b' :: ds => parseNumber 2 ds
    | ds => parseNumber 10 ds
  match n with
  | some n => if n < 256 then some (BitVec.ofNat 8 n) else none
  | none => none

/-- The decimal text of an immediate. -/
def immText (b : Byte) : List Char := Nat.toDigits 10 b.toNat

/-- A space of assembler text: a tab counts as one (DESIGN CHOICE, log entry 17). -/
def isAsmSpace (c : Char) : Bool := c == ' ' || c == '\t'

/-- A character of a word: neither a space nor a comma. -/
def isWordChar (c : Char) : Bool := !isAsmSpace c && c != ','

/-- Drop the spaces a text begins with. -/
def dropSpaces (l : List Char) : List Char := l.dropWhile isAsmSpace

/-- Drop the separator between two operands: a comma with optional spaces, or spaces alone, the source's own
spelling (R100). That the optional spaces may also stand before the comma is DESIGN CHOICE (log entry 17). -/
def dropSeparator (l : List Char) : List Char :=
  match dropSpaces l with
  | ',' :: rest => dropSpaces rest
  | rest => rest

/-- The operand words of a line after its mnemonic: none, one or two. Spaces or tabs after the last word are dropped
(DESIGN CHOICE, log entry 17: R100 does not mention them). -/
def operandWords (l : List Char) : Option (List (List Char)) :=
  match dropSpaces l with
  | [] => some []
  | l1 =>
    let w1 := l1.takeWhile isWordChar
    let r1 := dropSpaces (l1.dropWhile isWordChar)
    if w1 = [] then none
    else if r1 = [] then some [w1]
    else
      let l2 := dropSeparator r1
      let w2 := l2.takeWhile isWordChar
      let r2 := dropSpaces (l2.dropWhile isWordChar)
      if w2 = [] then none else if r2 = [] then some [w1, w2] else none

/-- The instruction a mnemonic and its operand words make, in the forms R100 lists. -/
def parseForm (o : Opcode) (ws : List (List Char)) : Option Instr :=
  match o.operandCount, ws with
  | 0, [] => some (o.build 0 0)
  | 1, [t] => (parseReg t).map fun a => o.build a 0
  | 2, [t, u] =>
    match parseReg t, (if o = .ldi then parseImm u else parseReg u) with
    | some a, some b => some (o.build a b)
    | _, _ => none
  | _, _ => none

/-- The instruction a line of assembler text denotes (R100); none where it is not of a form R100 lists. R100 does not
mention spaces or tabs before the mnemonic or after the last operand; the model accepts them (DESIGN CHOICE, log
entry 17). -/
def parseAsm (line : List Char) : Option Instr :=
  let l := dropSpaces line
  match Opcode.all.find? fun o => o.mnemonic == l.takeWhile isWordChar with
  | some o =>
    match operandWords (l.dropWhile isWordChar) with
    | some ws => parseForm o ws
    | none => none
  | none => none

/-- The operand texts of an instruction; none where a register operand has no spelling. -/
def Instr.operandTexts (i : Instr) : Option (List (List Char)) :=
  match i with
  | .ldi a b => (regText a).map fun t => [t, immText b]
  | i => i.regOperands.mapM regText

/-- The assembler text of an instruction: the mnemonic, then its operands separated by a comma and a space
(R100). -/
def Instr.asmText (i : Instr) : Option (List Char) :=
  match i.operandTexts with
  | some [] => some i.opcode.mnemonic
  | some (t :: ts) => some (i.opcode.mnemonic ++ ' ' :: t ++ (ts.map fun u => ',' :: ' ' :: u).flatten)
  | none => none

end Sys2Proof
end

