-- ==== Sys2Proof/Machine/Boot.lean ====
section
/-! DEFINITION. Boot (70_reset_and_hazards.md R231, R232): construction, the complete memory image, and the loader's
text format (30_encoding.md R101) that writes an image down. The loader itself is an external collaborator
(00_scope.md R6); what it hands the core, and when it prevents a start, is here. -/

namespace Sys2Proof.Machine

/-- Why a program is not launched: a loader error "must prevent the core from ever starting with a
partially-loaded or nonsensical image" (R231). It is no state of the core. -/
inductive LoadError
  /-- A retained line is not an 8-character base-2 literal (R101). -/
  | malformedLine
  /-- The image has more than 256 bytes (R231, D20). -/
  | imageTooLong
deriving DecidableEq, Repr

/-- Construction with `SP_INIT` followed by a complete `INIT_IMAGE` at addresses 0 up (R231, R232). -/
def launch (spInit : Byte) (image : List Byte) : Except LoadError State :=
  if image.length ≤ Config.memSize then
    .ok ((State.construct spInit).setMem (Memory.setBytes [] 0 image))
  else .error .imageTooLong

/-- White space inside a line. -/
def isLineBlank (c : Char) : Bool := c == ' ' || c == '\t' || c == '\r'

/-- A line without its comment, which starts at a `#` (R101), and without white space at its ends (log
entry 16). -/
def lineContent (line : List Char) : List Char :=
  (((line.takeWhile fun c => c != '#').dropWhile isLineBlank).reverse.dropWhile isLineBlank).reverse

/-- The value of a base-2 literal, most significant digit first, on top of `acc`. -/
def parseBits (acc : Nat) : List Char → Option Nat
  | [] => some acc
  | '0' :: rest => parseBits (2 * acc) rest
  | '1' :: rest => parseBits (2 * acc + 1) rest
  | _ :: _ => none

/-- The bytes a loader line contributes: none for a blank line, one for an 8-character base-2 literal (R101). -/
def loadLine (line : List Char) : Except LoadError (List Byte) :=
  let t := lineContent line
  if t = [] then .ok []
  else if t.length = 8 then
    match parseBits 0 t with
    | some n => .ok [BitVec.ofNat 8 n]
    | none => .error .malformedLine
  else .error .malformedLine

/-- The bytes of a program's lines in order (R101). -/
def loadLines : List (List Char) → Except LoadError (List Byte)
  | [] => .ok []
  | line :: rest =>
    match loadLine line with
    | .error e => .error e
    | .ok bs =>
      match loadLines rest with
      | .error e => .error e
      | .ok bs' => .ok (bs ++ bs')

/-- Load a program's lines and launch it. -/
def launchLines (spInit : Byte) (lines : List (List Char)) : Except LoadError State :=
  match loadLines lines with
  | .error e => .error e
  | .ok image => launch spInit image

/-- The loader line of a byte: its 8 binary digits, most significant first (R101). -/
def byteLine (v : Byte) : List Char :=
  [7, 6, 5, 4, 3, 2, 1, 0].map fun i => if v.getLsbD i then '1' else '0'

end Sys2Proof.Machine
end

