-- ==== Sys2Proof/Machine/Run.lean ====
section
/-! DEFINITION. The run interface (40_dispatch.md R129, 60_exceptions.md R215). -/

namespace Sys2Proof.Machine

/-- `run()` for at most `n` steps: repeat `step()` while `run = Running` (R129). A program may run forever
(R127), so the loop takes a bound; the run is over when `run` is not `Running`. -/
def runFor : Nat → State → State
  | 0, s => s
  | n + 1, s =>
    match step s with
    | .next t => runFor n t
    | .fault _ => s
    | .refused _ => s

/-- What the caller reads at the end of a run: the bytes emitted in order, and `run`, which on `Faulted` carries
the fault kind and the pc at failure (R129, R215). Nothing else of a faulted state is surfaced (R201). -/
def report (s : State) : List Byte × RunState := (s.out, s.run)

end Sys2Proof.Machine
end

