-- ==== Sys2Proof/Safety.lean ====
section
/-! DEFINITION. What counts as a safe run, and the invariant of the core that every step keeps. -/

namespace Sys2Proof.Machine

/-- The invariant: memory is in canonical form; the pc is 0 to 256 (10_state.md R36); a halted core stands at an
address an instruction can be fetched from (R140, R122); a faulted core reports the pc it stands at (40_dispatch.md
R130), and not with `UnsupportedOperation`, which no program raises (42_alu.md R151). -/
structure State.Inv (s : State) : Prop where
  memWf : s.mem.wf = true
  pcRange : s.pc ≤ 256
  haltedPc : s.run = .halted → s.pc ≤ lastFetchAddress
  faultedReport : ∀ k p, s.run = .faulted k p → p = s.pc ∧ k ≠ .unsupportedOperation

/-- A step runs safely: it answers a next state that is not `Faulted` (60_exceptions.md R200). -/
def StepsSafely (s : State) : Prop := ∃ t, step s = .next t ∧ ∀ k p, t.run ≠ .faulted k p

/-- The execute faults of 60_exceptions.md R201's table, instruction by instruction: `NoFaultListed s i` where the table
lists none for `i` at `s`. PUSH and CALL need a stack pointer above 0, RET and a POP of R0 to R6 one below 255, and
POP R7 a popped byte below 255 (R180; D8, log entry 7); JEQ and JNE check their operand only when taken (D11, log
entry 11). -/
def NoFaultListed (s : State) : Instr → Prop
  | .hlt => True
  | .ldi a _ => a.toNat < 8
  | .prn a => a.toNat < 8
  | .add a b => a.toNat < 8 ∧ b.toNat < 8
  | .sub a b => a.toNat < 8 ∧ b.toNat < 8
  | .mul a b => a.toNat < 8 ∧ b.toNat < 8
  | .cmp a b => a.toNat < 8 ∧ b.toNat < 8
  | .jmp a => a.toNat < 8
  | .jeq a => s.fl = .eq → a.toNat < 8
  | .jne a => s.fl ≠ .eq → a.toNat < 8
  | .push a => a.toNat < 8 ∧ s.sp ≠ 0
  | .pop a => a.toNat < 7 ∧ s.sp ≠ 255 ∨ a = 7 ∧ s.mem.byte s.sp.toNat ≠ 255
  | .call a => a.toNat < 8 ∧ s.sp ≠ 0
  | .ret => s.sp ≠ 255

end Sys2Proof.Machine
end

