-- ==== Sys2Proof/Certificates/Slice0/Obligations.lean ====
section
/-! DEFINITION. The statements for the provers. A docstring names the rule a statement formalises, and the
decision D<n> (92_eei_decisions.md) or log entry a clause rests on where it rests on one. `s.mem.wf` is part of
the invariant `State.Inv` that `StepKeepsTheInvariant` states. -/

open Sys2Proof Sys2Proof.Machine

/-! ## Reset and launch -/

/-- 70_reset_and_hazards.md R230, item by item; `x[7]` is the default `SP_INIT` 244 (D5, log entry 2), `fl` is the
abstract NONE (D6), `out` is empty (D17). -/
def Obligations.ResetStateIsAsSpecified : Prop :=
  (∀ j (hj : j < 7), State.reset.regs[j] = 0) ∧ State.reset.sp = 244 ∧ State.reset.pc = 0 ∧
  State.reset.fl = .none ∧ (∀ a, State.reset.mem.byte a = 0) ∧ State.reset.out = [] ∧
  State.reset.run = .running

/-- R231: the image stands at addresses 0 to n-1, every other byte is 0, and an image longer than 256 bytes is a
loader error; the rest of the state is construction's (R232): `x[7]` is the given `SP_INIT`, whatever it is, and the
other registers are 0 (R230, R34). -/
def Obligations.LaunchPlacesTheImage : Prop :=
  ∀ (sp : Byte) (image : List Byte),
    (image.length ≤ 256 → ∃ s, launch sp image = .ok s ∧
      (∀ a (ha : a < image.length), s.mem.byte a = image[a]) ∧
      (∀ a, image.length ≤ a → s.mem.byte a = 0) ∧
      s.sp = sp ∧ (∀ j (hj : j < 7), s.regs[j] = 0) ∧ s.pc = 0 ∧ s.fl = (State.construct sp).fl ∧ s.out = [] ∧
      s.run = .running) ∧
    (256 < image.length → launch sp image = .error .imageTooLong)

/-! ## Encoding -/

/-- Decode and encode agree on every instruction with every operand, before any bytes, under every injective
`OPCODE_MAP` (30_encoding.md R90 to R92, R97). -/
def Obligations.DecodeOfEncodeIsTheInstruction : Prop :=
  ∀ (m : OpcodeMap), m.Injective → ∀ (i : Instr) (rest : List Byte),
    decode m (encode m i ++ rest) = .ok (i, rest)

/-- The other direction: what decodes is exactly the encoding of what it decodes to, and takes its length. -/
def Obligations.DecodedBytesAreTheEncoding : Prop :=
  ∀ (m : OpcodeMap) (bytes : List Byte) (i : Instr) (rest : List Byte),
    decode m bytes = .ok (i, rest) → bytes = encode m i ++ rest ∧ bytes.length = i.length + rest.length

/-- R95: the opcode byte alone selects one of the 14 instructions, or none, whatever bytes follow it. -/
def Obligations.OpcodeByteAloneSelects : Prop :=
  ∀ (m : OpcodeMap) (op : Byte),
    (∀ o, decodeOpcode m op = some o → m o = op) ∧
    (decodeOpcode m op = none ↔ ∀ o, m o ≠ op) ∧
    ∀ (bs cs : List Byte) (i j : Instr) (r r' : List Byte),
      decode m (op :: bs) = .ok (i, r) → decode m (op :: cs) = .ok (j, r') →
        i.opcode = j.opcode ∧ decodeOpcode m op = some i.opcode

/-- R99 under the default map (D1, log entry 1): 242 of the 256 bytes are no opcode, 0x00 among them. -/
def Obligations.UnlistedOpcodeBytes : Prop :=
  ((List.range 256).filter fun n => (decodeOpcode opcodeMap (BitVec.ofNat 8 n)).isNone).length = 242 ∧
  decodeOpcode opcodeMap 0x00 = none

/-- A sanity statement: bytes written out from R93's encodings (D1, log entry 1) decode to their instructions. -/
def Obligations.WrittenOutWordsDecode : Prop :=
  decode opcodeMap [0b00000001] = .ok (.hlt, []) ∧
  decode opcodeMap [0b10000010, 0b00000011, 0b11111111] = .ok (.ldi 3 255, []) ∧
  decode opcodeMap [0b01000111, 0b00000101] = .ok (.prn 5, []) ∧
  decode opcodeMap [0b10100001, 0b00000111, 0b00000000] = .ok (.sub 7 0, []) ∧
  decode opcodeMap [0b01010101, 0b00000011] = .ok (.jeq 3, []) ∧
  decode opcodeMap [0b01000110, 0b00000100] = .ok (.pop 4, []) ∧
  decode opcodeMap [0b01010000, 0b00001000] = .ok (.call 8, []) ∧
  decode opcodeMap [0b00010001] = .ok (.ret, [])

/-- R100: an instruction whose register operands name registers has an assembler text that denotes it again; one
with a register index above 7 has none. The text's canonical form is log entry 17's. -/
def Obligations.AssemblerTextRoundTrip : Prop :=
  ∀ i : Instr, (i.wellFormed = true → ∃ t, i.asmText = some t ∧ parseAsm t = some i) ∧
    (i.wellFormed = false → i.asmText = none)

/-- R101: a program written one byte a line loads as those bytes; a line may carry a trailing comment, which starts at a
`#` directly after the literal; an empty line contributes nothing, wherever it stands. Two clauses are the model's
reading of R101, not its words (DEDUCED, log entry 16): a space between the literal and the `#` is dropped, and a line
of comment only counts as blank. -/
def Obligations.LoaderTextGivesTheBytes : Prop :=
  (∀ bytes : List Byte, loadLines (bytes.map byteLine) = .ok bytes) ∧
  (∀ lines : List (Byte × List Char),
    loadLines (lines.map fun l => byteLine l.1 ++ '#' :: l.2) = .ok (lines.map Prod.fst)) ∧
  (∀ xs ys : List (List Char), loadLines (xs ++ [] :: ys) = loadLines (xs ++ ys)) ∧
  (∀ (v : Byte) (c : List Char), loadLine (byteLine v ++ ' ' :: '#' :: c) = .ok [v]) ∧
  (∀ c : List Char, loadLine ('#' :: c) = .ok []) ∧ loadLine [] = .ok []

/-! ## The step -/

/-- R120 to R123: in `Running`, where the three bytes at the pc are in range and decode, the step is the execution
of the decoded instruction, at that very state: nothing is added around it (each instruction's advance or
redirection is part of its execution, R124). -/
def Obligations.StepRunsTheDecodedInstruction : Prop :=
  ∀ (s : State) (i : Instr) (rest : List Byte), s.run = .running → s.pc ≤ 253 →
    decode opcodeMap [s.mem.byte s.pc, s.mem.byte (s.pc + 1), s.mem.byte (s.pc + 2)] = .ok (i, rest) →
      step s = exec i s

/-- 40_dispatch.md R121, R122 and 60_exceptions.md R203 items 1 to 3: which fault a fetch raises. Rests on D3 (decode
before operand fetch, log entry 10) and D9 (nothing but `run` changes, log entry 8). -/
def Obligations.FetchFaultsInOrder : Prop :=
  ∀ s : State, s.run = .running →
    (256 ≤ s.pc → step s = .next { s with run := .faulted .addressOutOfRange s.pc }) ∧
    (s.pc < 256 → (∀ o, opcodeMap o ≠ s.mem.byte s.pc) →
      step s = .next { s with run := .faulted .invalidOpcode s.pc }) ∧
    (254 ≤ s.pc → s.pc < 256 → (∃ o, opcodeMap o = s.mem.byte s.pc) →
      step s = .next { s with run := .faulted .addressOutOfRange s.pc })

/-- R120: while `run = Running` there is a step, and in the terminal states there is none. -/
def Obligations.StepExistsExactlyWhileRunning : Prop :=
  ∀ s : State, (∃ t, step s = .next t) ↔ s.run = .running

/-- 93_implementation_defined.md: "every state has either exactly one successor or is terminal". No instruction is
refused and none stops the model: a fault of the spec is itself a next state (log entry 21). -/
def Obligations.EveryInstructionAnswersANextState : Prop :=
  ∀ (i : Instr) (s : State), ∃ t, exec i s = .next t

/-- 00_scope.md R14, R130, R202: a faulting step reports the pc it began at and changes nothing but `run` (D9, log
entry 8). -/
def Obligations.FaultIsPreciseAndReportsThePc : Prop :=
  ∀ (s t : State) (k : FaultKind) (p : Nat), step s = .next t → t.run = .faulted k p →
    p = s.pc ∧ t = { s with run := .faulted k s.pc }

/-- 42_alu.md R151: any other requested ALU operation fails with `UnsupportedOperation`, the four are supported, and
no step of any program raises it. -/
def Obligations.UnsupportedOperationIsUnreachable : Prop :=
  (∀ (n : Nat) (u v : Byte), alu (.other n) u v = .error .unsupportedOperation) ∧
  (∀ op ∈ [AluOp.add, .sub, .mul, .cmp], ∀ u v : Byte, ∃ out, alu op u v = .ok out) ∧
  ∀ (s t : State) (p : Nat), step s = .next t → t.run ≠ .faulted .unsupportedOperation p

/-- R128: a step leaves `Running` only by executing HLT (whose opcode byte then stands at the pc, at 253 or below) or
by a fault. The byte is the default map's (D1, log entry 1). -/
def Obligations.RunEndsOnlyByHltOrFault : Prop :=
  ∀ s t : State, step s = .next t →
    t.run = .running ∨
    (t.run = .halted ∧ s.mem.byte s.pc = opcodeMap .hlt ∧ s.pc ≤ 253) ∨
    ∃ k, t.run = .faulted k s.pc

/-- R66, R200, R201, R235: a step from `Running` is safe exactly where the fetch succeeds (when it does not,
`FetchFaultsInOrder` says) and R201's table lists no fault for the fetched instruction: `NoFaultListed` gives each
instruction its own condition. Rests on D3 (log entry 10), D8 (log entry 7) and D11 (log entry 11). -/
def Obligations.StepIsSafeWhereNoFaultIsListed : Prop :=
  ∀ s : State, s.run = .running → (StepsSafely s ↔ ∃ i, fetch opcodeMap s = .ok i ∧ NoFaultListed s i)

/-- A word that decodes runs in the very next step after `withFetchWord` (the model's interface, log entry 18). -/
def Obligations.PlacedWordRunsNext : Prop :=
  ∀ (s : State) (nbits w : Nat) (i : Instr), s.mem.wf = true → decodeTableWord nbits w = some i →
    step (s.withFetchWord nbits w) = exec i (s.withFetchWord nbits w)

/-! ## The invariant and runs -/

/-- The invariant `State.Inv` (canonical memory; pc 0 to 256, R36 and D4; the pc of a halted or faulted core, R140,
R130; no UnsupportedOperation, R151) holds at reset. -/
def Obligations.InvariantHoldsAtReset : Prop := State.reset.Inv

/-- ... and after every launch, with every `SP_INIT` and every image. -/
def Obligations.InvariantHoldsAtEveryLaunch : Prop :=
  ∀ (sp : Byte) (image : List Byte) (s : State), launch sp image = .ok s → s.Inv

/-- ... and every step keeps it, from every state that has it. -/
def Obligations.StepKeepsTheInvariant : Prop :=
  ∀ s t : State, s.Inv → step s = .next t → t.Inv

/-- Bounded runs compose, and a run that has halted or faulted is never resumed (R120, R129, R206). -/
def Obligations.TerminalRunIsNeverResumed : Prop :=
  ∀ (n k : Nat) (s : State), runFor (n + k) s = runFor k (runFor n s) ∧
    ((runFor n s).run ≠ .running → runFor (n + k) s = runFor n s)

/-- 10_state.md R42: a run only appends to the output, at most one byte a step. -/
def Obligations.RunOnlyAppendsToTheOutput : Prop :=
  ∀ (n : Nat) (s : State), ∃ l : List Byte, (runFor n s).out = s.out ++ l ∧ l.length ≤ n

/-- The output is an output: what has been emitted before influences nothing a run does (R42, R67). -/
def Obligations.OutputInfluencesNothing : Prop :=
  ∀ (n : Nat) (s t : State) (o : List Byte), runFor n s = t →
    runFor n { s with out := o ++ s.out } = { t with out := o ++ t.out }

/-! ## What instructions leave unchanged -/

/-- R38: `fl` is one of four values, NONE after construction; only CMP writes it, and never NONE; only JEQ and JNE
read it: every other instruction does the same whatever `fl` holds. -/
def Obligations.OnlyCmpWritesAndBranchesReadFlags : Prop :=
  (∀ f : Flags, f = .none ∨ f = .eq ∨ f = .lt ∨ f = .gt) ∧
  (∀ sp : Byte, (State.construct sp).fl = .none) ∧
  (∀ (i : Instr) (s t : State), exec i s = .next t → t.fl ≠ s.fl → i.opcode = .cmp ∧ t.fl ≠ .none) ∧
  (∀ (i : Instr) (s t : State) (f : Flags), i.opcode ≠ .jeq → i.opcode ≠ .jne → i.opcode ≠ .cmp →
    exec i s = .next t → exec i (s.setFl f) = .next (t.setFl f)) ∧
  (∀ (a b : Byte) (s t : State) (f : Flags), s.run = .running → exec (.cmp a b) s = .next t →
    exec (.cmp a b) (s.setFl f) = .next (if t.run = .running then t else t.setFl f))

/-- 20_memory.md R61: a fetch reads the bytes at pc, pc+1 and pc+2 and no other; an instruction leaves every byte of
memory unchanged, except that PUSH and CALL may store one byte, at the address `SPDec()` gives; POP and RET read the
byte at `sp` and no other; and no other instruction reads memory (with other memory contents it does the same to
the rest of the state). -/
def Obligations.OnlyStackInstructionsTouchMemory : Prop :=
  (∀ (m : OpcodeMap) (s u : State), u.pc = s.pc → (∀ k < 3, u.mem.byte (s.pc + k) = s.mem.byte (s.pc + k)) →
    fetch m u = fetch m s) ∧
  (∀ (i : Instr) (s t : State), s.mem.wf = true → exec i s = .next t → i.opcode ≠ .push → i.opcode ≠ .call →
    ∀ x, t.mem.byte x = s.mem.byte x) ∧
  (∀ (i : Instr) (s t s1 : State), s.mem.wf = true → exec i s = .next t → (i.opcode = .push ∨ i.opcode = .call) →
    spDec s = .ok s1 → ∀ x, x ≠ s1.sp.toNat → t.mem.byte x = s.mem.byte x) ∧
  (∀ (i : Instr) (s t : State) (e : FaultKind), exec i s = .next t → (i.opcode = .push ∨ i.opcode = .call) →
    spDec s = .error e → ∀ x, t.mem.byte x = s.mem.byte x) ∧
  (∀ (i : Instr) (s t : State) (m : Memory),
    (i.opcode ≠ .pop ∧ i.opcode ≠ .ret ∨ m.byte s.sp.toNat = s.mem.byte s.sp.toNat) → exec i s = .next t →
    ∃ t', exec i (s.setMem m) = .next t' ∧ t'.setMem t.mem = t)

/-- R42: only PRN appends to `out`, the value of its register, one byte (D17, log entry 13). -/
def Obligations.OnlyPrnWritesTheOutput : Prop :=
  ∀ (i : Instr) (s t : State), exec i s = .next t → t.out = s.out ∨
    ∃ (a : Byte) (h : a.toNat < 8), i = .prn a ∧ t.out = s.out ++ [s.regs[a.toNat]]

/-- R31: a register changes only where it is the destination of LDI, ADD, SUB, MUL or POP, or is R7 and the
instruction is PUSH, POP, CALL or RET. -/
def Obligations.OnlyDestinationsAndStackPointerChange : Prop :=
  ∀ (i : Instr) (s t : State), exec i s = .next t → ∀ j (hj : j < 8), t.regs[j] ≠ s.regs[j] →
    (∃ a b : Byte, a.toNat = j ∧ (i = .ldi a b ∨ i = .add a b ∨ i = .sub a b ∨ i = .mul a b)) ∨
    (∃ a : Byte, a.toNat = j ∧ i = .pop a) ∨
    (j = 7 ∧ (i.opcode = .push ∨ i.opcode = .pop ∨ i.opcode = .call ∨ i.opcode = .ret))

/-- R39: `run` is written only by HLT and by a fault. -/
def Obligations.OnlyHltAndFaultsWriteRun : Prop :=
  ∀ (i : Instr) (s t : State), exec i s = .next t →
    (t.run = s.run ∨ (i = .hlt ∧ t.run = .halted) ∨ ∃ k, t = { s with run := .faulted k s.pc })

/-- 40_dispatch.md R125, R90: the advance of an instruction that does not fault is its length, 3 or 2, by plain
integer addition (D4, log entry 3), and a pc of 256 faults at the next fetch. -/
def Obligations.AdvanceIsTheLengthAndNeverWraps : Prop :=
  (∀ (i : Instr) (s t : State), exec i s = .next t → t.run = .running →
    (i.opcode ∈ [Opcode.ldi, .add, .sub, .mul, .cmp] → t.pc = s.pc + 3 ∧ i.length = 3) ∧
    (i.opcode ∈ [Opcode.prn, .push, .pop] → t.pc = s.pc + 2 ∧ i.length = 2) ∧
    ((i.opcode = .jeq ∧ s.fl ≠ .eq ∨ i.opcode = .jne ∧ s.fl = .eq) → t.pc = s.pc + 2 ∧ i.length = 2)) ∧
  ∀ t : State, t.run = .running → t.pc = 256 → step t = .next { t with run := .faulted .addressOutOfRange 256 }

/-! ## What each instruction does -/

/-- 41_control_io.md R140 HLT: `run` becomes Halted and nothing else changes; the pc stays at the HLT byte (D12, log
entry 12). -/
def Obligations.HltHalts : Prop :=
  ∀ s : State, exec .hlt s = .next { s with run := .halted }

/-- R141 LDI: `x[a]` takes `b`, the pc advances by 3, nothing else changes. -/
def Obligations.LdiLoadsTheImmediate : Prop :=
  ∀ (a b : Byte) (s : State) (h : a.toNat < 8), ∃ t, exec (.ldi a b) s = .next t ∧
    t = { s with regs := s.regs.set a.toNat b h, pc := s.pc + 3 } ∧ readReg t a = .ok b

/-- R142 PRN: the register's value is appended to the output (D17, log entry 13), the pc advances by 2. -/
def Obligations.PrnEmitsTheRegister : Prop :=
  ∀ (a : Byte) (s : State) (h : a.toNat < 8),
    exec (.prn a) s = .next { s with out := s.out ++ [s.regs[a.toNat]], pc := s.pc + 2 }

/-- 42_alu.md R152, R155 to R157: ADD, SUB and MUL write the exact sum, difference or product of the two register
values, reduced modulo 256, to the first register, and change nothing else but the pc, no flag included; the results
are also the correct signed results modulo 256. -/
def Obligations.AddSubMulWrapAndSetNoFlag : Prop :=
  ∀ (a b : Byte) (s : State) (ha : a.toNat < 8) (hb : b.toNat < 8),
    (∃ r : Byte, exec (.add a b) s = .next { s with regs := s.regs.set a.toNat r ha, pc := s.pc + 3 } ∧
      r.toNat = (s.regs[a.toNat].toNat + s.regs[b.toNat].toNat) % 256 ∧
      r.toInt % 256 = (s.regs[a.toNat].toInt + s.regs[b.toNat].toInt) % 256) ∧
    (∃ r : Byte, exec (.sub a b) s = .next { s with regs := s.regs.set a.toNat r ha, pc := s.pc + 3 } ∧
      (r.toNat : Int) = ((s.regs[a.toNat].toNat : Int) - (s.regs[b.toNat].toNat : Int)) % 256 ∧
      r.toInt % 256 = (s.regs[a.toNat].toInt - s.regs[b.toNat].toInt) % 256) ∧
    (∃ r : Byte, exec (.mul a b) s = .next { s with regs := s.regs.set a.toNat r ha, pc := s.pc + 3 } ∧
      r.toNat = (s.regs[a.toNat].toNat * s.regs[b.toNat].toNat) % 256 ∧
      r.toInt % 256 = (s.regs[a.toNat].toInt * s.regs[b.toNat].toInt) % 256)

/-- R154, R158 CMP: `fl` takes exactly one of EQ, LT, GT by comparing the two values as unsigned integers (D7, log
entry 6); nothing else changes but the pc. -/
def Obligations.CmpSetsExactlyOneFlag : Prop :=
  ∀ (a b : Byte) (s : State) (_ : a.toNat < 8) (_ : b.toNat < 8), ∃ f : Flags,
    exec (.cmp a b) s = .next { s with fl := f, pc := s.pc + 3 } ∧ f ≠ .none ∧
    (f = .eq ↔ s.regs[a.toNat] = s.regs[b.toNat]) ∧
    (f = .lt ↔ s.regs[a.toNat].toNat < s.regs[b.toNat].toNat) ∧
    (f = .gt ↔ s.regs[b.toNat].toNat < s.regs[a.toNat].toNat)

/-- 43_branch.md R170 JMP: the pc takes the register's value; nothing else changes. -/
def Obligations.JmpJumpsToTheRegister : Prop :=
  ∀ (a : Byte) (s : State) (h : a.toNat < 8), exec (.jmp a) s = .next { s with pc := s.regs[a.toNat].toNat }

/-- R171 JEQ, R172 JNE: taken or not by `fl`, NONE counting as not Equal; only the pc changes. Not taken, a register
index above 7 does not fault (D11, log entry 11). -/
def Obligations.JeqAndJneBranchOnEqual : Prop :=
  ∀ (a : Byte) (s : State),
    (∀ h : a.toNat < 8, s.fl = .eq → exec (.jeq a) s = .next { s with pc := s.regs[a.toNat].toNat }) ∧
    (s.fl ≠ .eq → exec (.jeq a) s = .next { s with pc := s.pc + 2 }) ∧
    (∀ h : a.toNat < 8, s.fl ≠ .eq → exec (.jne a) s = .next { s with pc := s.regs[a.toNat].toNat }) ∧
    (s.fl = .eq → exec (.jne a) s = .next { s with pc := s.pc + 2 })

/-- R169: a branch to 254 or 255 is accepted and faults at the next step, reporting the target: AddressOutOfRange,
unless the byte there is no opcode, then InvalidOpcode (95_test_vectors.md J3; D3, log entry 10). -/
def Obligations.JumpPastTheLastInstructionFaultsNext : Prop :=
  ∀ (a : Byte) (s : State) (h : a.toNat < 8), s.run = .running → 254 ≤ s.regs[a.toNat].toNat →
    ∃ t k, exec (.jmp a) s = .next t ∧ t.run = .running ∧
      step t = .next { t with run := .faulted k s.regs[a.toNat].toNat } ∧
      k = if decodeOpcode opcodeMap (s.mem.byte s.regs[a.toNat].toNat) = none then .invalidOpcode
        else .addressOutOfRange

/-- 44_stack_call.md R182 PUSH, where the stack pointer is at least 1: the stack pointer is decremented, and the
register's value AFTER that is stored where it then points (so PUSH R7 stores the decremented value); every other
byte and register is unchanged. -/
def Obligations.PushStoresBelowTheStackPointer : Prop :=
  ∀ (a : Byte) (s : State) (h : a.toNat < 8), s.mem.wf = true → 1 ≤ s.sp.toNat →
    ∃ s1 t, spDec s = .ok s1 ∧ s1.sp.toNat = s.sp.toNat - 1 ∧ exec (.push a) s = .next t ∧
      t.mem.byte s1.sp.toNat = s1.regs[a.toNat] ∧ (a.toNat < 7 → s1.regs[a.toNat] = s.regs[a.toNat]) ∧
      (∀ x, x ≠ s1.sp.toNat → t.mem.byte x = s.mem.byte x) ∧ t.mem.wf = true ∧
      t.sp = s1.sp ∧ (∀ j (hj : j < 7), t.regs[j] = s.regs[j]) ∧
      t.pc = s.pc + 2 ∧ t.fl = s.fl ∧ t.out = s.out ∧ t.run = s.run

/-- R183 POP: for a destination other than R7, where the stack pointer is at most 254, the byte at the stack pointer
is loaded and the stack pointer incremented; POP R7 leaves R7 one above the popped byte, where that is at most 254.
Memory is unchanged. -/
def Obligations.PopLoadsFromTheStackPointer : Prop :=
  (∀ (a : Byte) (s : State) (_ : a.toNat < 7), s.sp.toNat ≤ 254 →
    ∃ t, exec (.pop a) s = .next t ∧ t.regs[a.toNat] = s.mem.byte s.sp.toNat ∧
      t.sp.toNat = s.sp.toNat + 1 ∧ (∀ j (hj : j < 7), j ≠ a.toNat → t.regs[j] = s.regs[j]) ∧
      t.mem = s.mem ∧ t.pc = s.pc + 2 ∧ t.fl = s.fl ∧ t.out = s.out ∧ t.run = s.run) ∧
  (∀ s : State, (s.mem.byte s.sp.toNat).toNat ≤ 254 →
    ∃ t, exec (.pop 7) s = .next t ∧ t.sp.toNat = (s.mem.byte s.sp.toNat).toNat + 1 ∧
      (∀ j (hj : j < 7), t.regs[j] = s.regs[j]) ∧
      t.mem = s.mem ∧ t.pc = s.pc + 2 ∧ t.fl = s.fl ∧ t.out = s.out ∧ t.run = s.run)

/-- R184 CALL, at a pc an instruction can be fetched from and with the stack pointer at least 1: `pc + 2` is stored
below the stack pointer, and the pc takes the register's value after the decrement (so CALL R7 jumps to the
decremented stack pointer). -/
def Obligations.CallPushesTheReturnAddress : Prop :=
  ∀ (a : Byte) (s : State) (h : a.toNat < 8), s.mem.wf = true → s.pc ≤ 253 → 1 ≤ s.sp.toNat →
    ∃ s1 t, spDec s = .ok s1 ∧ s1.sp.toNat = s.sp.toNat - 1 ∧ exec (.call a) s = .next t ∧
      (t.mem.byte s1.sp.toNat).toNat = s.pc + 2 ∧
      (∀ x, x ≠ s1.sp.toNat → t.mem.byte x = s.mem.byte x) ∧ t.mem.wf = true ∧
      t.pc = s1.regs[a.toNat].toNat ∧ (a.toNat < 7 → s1.regs[a.toNat] = s.regs[a.toNat]) ∧
      t.sp = s1.sp ∧ (∀ j (hj : j < 7), t.regs[j] = s.regs[j]) ∧
      t.fl = s.fl ∧ t.out = s.out ∧ t.run = s.run

/-- R185 RET, where the stack pointer is at most 254: the pc takes the byte at the stack pointer, whoever put it
there, and the stack pointer is incremented. -/
def Obligations.RetPopsThePc : Prop :=
  ∀ s : State, s.sp.toNat ≤ 254 →
    ∃ t, exec .ret s = .next t ∧ t.pc = (s.mem.byte s.sp.toNat).toNat ∧ t.sp.toNat = s.sp.toNat + 1 ∧
      (∀ j (hj : j < 7), t.regs[j] = s.regs[j]) ∧
      t.mem = s.mem ∧ t.fl = s.fl ∧ t.out = s.out ∧ t.run = s.run

/-! ## Execute faults -/

/-- R12, R201 `InvalidRegister`, R203 item 4: which instructions raise it, and that nothing but `run` changes (D9, log
entry 8). For PUSH and CALL the stack pointer is checked first, for POP the register (D10, log entry 9); JEQ and JNE
raise it only when taken (D11, log entry 11). -/
def Obligations.InvalidRegisterOperandFaults : Prop :=
  ∀ (a b : Byte) (s : State),
    (8 ≤ a.toNat →
      (∀ i ∈ [Instr.ldi a b, .prn a, .jmp a, .pop a],
        exec i s = .next { s with run := .faulted .invalidRegister s.pc }) ∧
      (s.sp ≠ 0 → ∀ i ∈ [Instr.push a, .call a],
        exec i s = .next { s with run := .faulted .invalidRegister s.pc }) ∧
      (s.fl = .eq → exec (.jeq a) s = .next { s with run := .faulted .invalidRegister s.pc }) ∧
      (s.fl ≠ .eq → exec (.jne a) s = .next { s with run := .faulted .invalidRegister s.pc })) ∧
    (8 ≤ a.toNat ∨ 8 ≤ b.toNat → ∀ i ∈ [Instr.add a b, .sub a b, .mul a b, .cmp a b],
      exec i s = .next { s with run := .faulted .invalidRegister s.pc })

/-- R180, R182 to R185, R201 `AddressOutOfRange`: a stack pointer that would leave [0,255] (D8, log entry 7). PUSH and
CALL at 0 whatever the register operand; RET at 255; POP at 255, or POP R7 of the byte 255 (D10, log entry 9). -/
def Obligations.StackPointerNeverLeavesMemory : Prop :=
  ∀ (a : Byte) (s : State),
    (s.sp = 0 → ∀ i ∈ [Instr.push a, .call a],
      exec i s = .next { s with run := .faulted .addressOutOfRange s.pc }) ∧
    (s.sp = 255 → exec .ret s = .next { s with run := .faulted .addressOutOfRange s.pc }) ∧
    (s.sp = 255 → a.toNat < 7 → exec (.pop a) s = .next { s with run := .faulted .addressOutOfRange s.pc }) ∧
    (s.mem.byte s.sp.toNat = 255 → exec (.pop 7) s = .next { s with run := .faulted .addressOutOfRange s.pc })

/-! ## Shared operations and laws -/

/-- 20_memory.md R63: `read` and `write` both fail with AddressOutOfRange outside [0,255]; a read returns the last value
written there (or the initial image's byte), has no side effect, and a write changes only the addressed cell. -/
def Obligations.MemoryReadsTheLastWrite : Prop :=
  (∀ (sp : Byte) (image : List Byte) (s : State), launch sp image = .ok s →
    ∀ a < 256, memRead s a = .ok (image.getD a 0)) ∧
  ∀ (s : State) (a : Nat) (v : Byte), s.mem.wf = true →
    (a < 256 → (∃ w, memRead s a = .ok w) ∧ ∃ t, memWrite s a v = .ok t ∧ memRead t a = .ok v ∧
      (∀ b, b ≠ a → memRead t b = memRead s b) ∧ t = { s with mem := t.mem } ∧ t.mem.wf = true) ∧
    (256 ≤ a → memRead s a = .error .addressOutOfRange ∧ memWrite s a v = .error .addressOutOfRange)

/-- 00_scope.md R12, 10_state.md R32: a checked register access fails with InvalidRegister outside [0,7], on the whole
operand byte; a write changes that register alone; `sp` is the same storage as `x[7]`. -/
def Obligations.RegisterFileReadsTheLastWrite : Prop :=
  ∀ (s : State) (i v : Byte),
    (∀ h : i.toNat < 8, readReg s i = .ok s.regs[i.toNat] ∧ ∃ t, writeReg s i v = .ok t ∧ readReg t i = .ok v ∧
      (∀ j : Byte, j ≠ i → readReg t j = readReg s j) ∧ t = { s with regs := t.regs } ∧ (i = 7 → t.sp = v)) ∧
    (8 ≤ i.toNat → readReg s i = .error .invalidRegister ∧ writeReg s i v = .error .invalidRegister) ∧
    readReg s 7 = .ok s.sp ∧ readReg (s.setSp v) 7 = .ok v

/-- 44_stack_call.md R180: `SPDec()` and `SPInc()` by integer subtraction and addition, checked, never wrapping (D8,
log entry 7). -/
def Obligations.StackPointerUpdatesAreChecked : Prop :=
  ∀ s : State,
    ((s.sp.toNat : Int) - 1 < 0 → spDec s = .error .addressOutOfRange) ∧
    (0 ≤ (s.sp.toNat : Int) - 1 → ∃ t, spDec s = .ok t ∧ (t.sp.toNat : Int) = (s.sp.toNat : Int) - 1 ∧
      t = { s with regs := s.regs.set 7 t.sp }) ∧
    (255 < s.sp.toNat + 1 → spInc s = .error .addressOutOfRange) ∧
    (s.sp.toNat + 1 ≤ 255 → ∃ t, spInc s = .ok t ∧ t.sp.toNat = s.sp.toNat + 1 ∧
      t = { s with regs := s.regs.set 7 t.sp })

/-- R186: PUSH then POP, as two steps under every injective `OPCODE_MAP`; and for R7 as source or destination the
law does not hold as the source states it (90_conflicts.md C2). -/
def Obligations.PushThenPopRestores : Prop :=
  (∀ (m : OpcodeMap) (s : State) (r r2 : Byte) (hr : r.toNat < 7) (hr2 : r2.toNat < 7), m.Injective →
    s.run = .running → s.mem.wf = true → s.pc ≤ 251 → 1 ≤ s.sp.toNat →
    s.mem.byte s.pc = m .push → s.mem.byte (s.pc + 1) = r →
    s.mem.byte (s.pc + 2) = m .pop → s.mem.byte (s.pc + 3) = r2 →
    s.sp.toNat - 1 ≠ s.pc + 2 → s.sp.toNat - 1 ≠ s.pc + 3 →
    ∃ t1 t2, stepWith m s = .next t1 ∧ stepWith m t1 = .next t2 ∧ t2.run = .running ∧
      t2.regs[r2.toNat] = s.regs[r.toNat] ∧ t2.sp = s.sp ∧ t2.mem.byte (s.sp.toNat - 1) = s.regs[r.toNat]) ∧
  (∃ s t1 t2 : State, exec (.push 7) s = .next t1 ∧ exec (.pop 3) t1 = .next t2 ∧ t2.run = .running ∧
    t2.regs[3] ≠ s.sp) ∧
  ∃ s t1 t2 : State, exec (.push 2) s = .next t1 ∧ exec (.pop 7) t1 = .next t2 ∧ t2.run = .running ∧
    t2.sp ≠ s.regs[2] ∧ t2.sp ≠ s.sp

/-- R187: CALL then RET, as two steps under every injective `OPCODE_MAP`. (CALL R7 jumps to the pushed address, which
the rule excludes.) -/
def Obligations.CallThenRetRestores : Prop :=
  ∀ (m : OpcodeMap) (s : State) (a : Byte) (h : a.toNat < 7), m.Injective →
    s.run = .running → s.mem.wf = true → s.pc ≤ 253 → 1 ≤ s.sp.toNat →
    s.mem.byte s.pc = m .call → s.mem.byte (s.pc + 1) = a →
    s.mem.byte s.regs[a.toNat].toNat = m .ret → s.regs[a.toNat].toNat ≤ 253 →
    s.regs[a.toNat].toNat ≠ s.sp.toNat - 1 →
    ∃ t1 t2, stepWith m s = .next t1 ∧ stepWith m t1 = .next t2 ∧ t2.run = .running ∧
      t2.pc = s.pc + 2 ∧ t2.regs = s.regs ∧ t2.fl = s.fl ∧
      (t2.mem.byte (s.sp.toNat - 1)).toNat = s.pc + 2

/-- 20_memory.md R73: a byte written by PUSH or CALL is what a later fetch of that address decodes, with no action in
between. -/
def Obligations.StoredByteIsFetched : Prop :=
  ∀ (i : Instr) (s s1 t u : State) (j : Instr), (i.opcode = .push ∨ i.opcode = .call) → s.run = .running →
    s.mem.wf = true → spDec s = .ok s1 → exec i s = .next t → t.run = .running → u.mem = t.mem →
    u.pc = s1.sp.toNat → fetch opcodeMap u = .ok j →
      (∀ (a : Byte) (h : a.toNat < 8), i = .push a → opcodeMap j.opcode = s1.regs[a.toNat]) ∧
      (∀ a : Byte, i = .call a → opcodeMap j.opcode = returnAddress s)
end

