-- ==== Sys2Proof/Laws/Decode.lean ====
section
/-! SUPPORT. What the decoder and the encoder do, in lemmas that proofs cite instead of unfolding them. -/

namespace Sys2Proof

theorem Opcode.mem_all (o : Opcode) : o ∈ Opcode.all := by cases o <;> decide

/-- Every row of the default map has an opcode byte of its own (30_encoding.md R93). -/
theorem opcodeMap_injective : opcodeMap.Injective := by
  intro o o' h
  cases o <;> cases o' <;> first | rfl | exact absurd h (by decide)

/-- A decoded opcode is a row of the map with that byte. -/
theorem decodeOpcode_some {m : OpcodeMap} {op : Byte} {o : Opcode} (h : decodeOpcode m op = some o) :
    m o = op := by
  simpa using List.find?_some h

/-- An opcode byte is rejected exactly when no row has it. -/
theorem decodeOpcode_none {m : OpcodeMap} {op : Byte} : decodeOpcode m op = none ↔ ∀ o, m o ≠ op := by
  simp [decodeOpcode, Opcode.mem_all]

/-- Under an injective map, a row's byte decodes to the row. -/
theorem decodeOpcode_self {m : OpcodeMap} (hm : m.Injective) (o : Opcode) : decodeOpcode m (m o) = some o := by
  cases h : decodeOpcode m (m o) with
  | none => exact absurd rfl (decodeOpcode_none.1 h o)
  | some o' => rw [hm o' o (decodeOpcode_some h)]

@[simp] theorem Opcode.opcode_build (o : Opcode) (a b : Byte) : (o.build a b).opcode = o := by cases o <;> rfl

/-- Decoding the three bytes a fetch reads. -/
theorem decode_fetched {m : OpcodeMap} {op a b : Byte} {o : Opcode} (h : decodeOpcode m op = some o) :
    ∃ rest, decode m [op, a, b] = .ok (o.build a b, rest) := by
  cases o <;> simp [decode, h, Opcode.operandCount, Opcode.build]

/-- Decoding three bytes whose first is no opcode. -/
theorem decode_fetched_none {m : OpcodeMap} {op a b : Byte} (h : decodeOpcode m op = none) :
    decode m [op, a, b] = .error (.invalidOpcode op) := by
  simp [decode, h]

end Sys2Proof
end

