-- ==== Sys2Proof/Laws/Memory.lean ====
section
/-! SUPPORT. The memory's laws: every operation keeps the canonical form, a read after a write gives the value
written, every other byte is left alone, and equal contents are equal lists. -/

namespace Sys2Proof.Machine

theorem Memory.wfFrom_cons {lo k : Nat} {v : Byte} {rest : Memory} :
    Memory.wfFrom lo ((k, v) :: rest) = true ↔
      lo ≤ k ∧ k < 256 ∧ v ≠ unlistedByte ∧ Memory.wfFrom (k + 1) rest = true := by
  simp [Memory.wfFrom, and_assoc]

/-- The canonical form from an address holds from every lower one. -/
theorem Memory.wfFrom_mono {lo lo' : Nat} {m : Memory} (h : Memory.wfFrom lo m = true) (hle : lo' ≤ lo) :
    Memory.wfFrom lo' m = true := by
  cases m with
  | nil => rfl
  | cons c rest =>
    obtain ⟨k, v⟩ := c
    rw [Memory.wfFrom_cons] at h ⊢
    exact ⟨hle.trans h.1, h.2⟩

/-- Below its first address a memory reads as unlisted. -/
theorem Memory.byte_of_lt {lo a : Nat} {m : Memory} (h : Memory.wfFrom lo m = true) (ha : a < lo) :
    m.byte a = unlistedByte := by
  induction m generalizing lo with
  | nil => rfl
  | cons c rest ih =>
    obtain ⟨k, v⟩ := c
    rw [Memory.wfFrom_cons] at h
    have hk : k ≠ a := by omega
    simpa [Memory.byte, hk] using ih h.2.2.2 (by omega)

/-- A canonical memory lists nothing from 256 up. -/
theorem Memory.byte_of_ge {lo a : Nat} {m : Memory} (h : Memory.wfFrom lo m = true) (ha : 256 ≤ a) :
    m.byte a = unlistedByte := by
  induction m generalizing lo with
  | nil => rfl
  | cons c rest ih =>
    obtain ⟨k, v⟩ := c
    rw [Memory.wfFrom_cons] at h
    have hk : k ≠ a := by omega
    simpa [Memory.byte, hk] using ih h.2.2.2

/-- A write below the first entry. -/
theorem Memory.set_cons_lt {k a : Nat} {w v : Byte} {rest : Memory} (h : a < k) :
    Memory.set ((k, w) :: rest) a v = if v = unlistedByte then (k, w) :: rest else (a, v) :: (k, w) :: rest := by
  simp [Memory.set, h]

/-- A write at the first entry. -/
theorem Memory.set_cons_self {a : Nat} {w v : Byte} {rest : Memory} :
    Memory.set ((a, w) :: rest) a v = if v = unlistedByte then rest else (a, v) :: rest := by
  simp [Memory.set]

/-- A write above the first entry. -/
theorem Memory.set_cons_gt {k a : Nat} {w v : Byte} {rest : Memory} (h : k < a) :
    Memory.set ((k, w) :: rest) a v = (k, w) :: Memory.set rest a v := by
  have h1 : ¬ a < k := by omega
  have h2 : a ≠ k := by omega
  simp [Memory.set, h1, h2]

theorem Memory.byte_cons (k a : Nat) (w : Byte) (rest : Memory) :
    Memory.byte ((k, w) :: rest) a = if k = a then w else Memory.byte rest a := rfl

theorem Memory.wfFrom_set {lo a : Nat} {m : Memory} {v : Byte} (h : Memory.wfFrom lo m = true)
    (hlo : lo ≤ a) (ha : a < 256) : Memory.wfFrom lo (m.set a v) = true := by
  induction m generalizing lo with
  | nil =>
    unfold Memory.set
    split
    · rfl
    · exact Memory.wfFrom_cons.2 ⟨hlo, ha, ‹_›, rfl⟩
  | cons c rest ih =>
    obtain ⟨k, w⟩ := c
    obtain ⟨h1, h2, h3, h4⟩ := Memory.wfFrom_cons.1 h
    rcases Nat.lt_trichotomy a k with hlt | rfl | hgt
    · rw [Memory.set_cons_lt hlt]
      split
      · exact h
      · exact Memory.wfFrom_cons.2 ⟨hlo, ha, ‹_›, Memory.wfFrom_cons.2 ⟨hlt, h2, h3, h4⟩⟩
    · rw [Memory.set_cons_self]
      split
      · exact Memory.wfFrom_mono h4 (by omega)
      · exact Memory.wfFrom_cons.2 ⟨hlo, ha, ‹_›, h4⟩
    · rw [Memory.set_cons_gt hgt]
      exact Memory.wfFrom_cons.2 ⟨h1, h2, h3, ih h4 hgt⟩

/-- A write keeps the canonical form. -/
theorem Memory.wf_set {m : Memory} {a : Nat} {v : Byte} (h : m.wf = true) (ha : a < 256) :
    (m.set a v).wf = true :=
  Memory.wfFrom_set h (Nat.zero_le a) ha

/-- Placing bytes inside the memory keeps the canonical form. -/
theorem Memory.wf_setBytes {m : Memory} {a : Nat} {bytes : List Byte} (h : m.wf = true)
    (ha : a + bytes.length ≤ 256) : (m.setBytes a bytes).wf = true := by
  induction bytes generalizing m a with
  | nil => exact h
  | cons v rest ih =>
    simp only [List.length_cons] at ha
    exact ih (Memory.wf_set h (by omega)) (by omega)

theorem Memory.byte_set_from {lo a b : Nat} {m : Memory} {v : Byte} (h : Memory.wfFrom lo m = true) :
    (m.set a v).byte b = if b = a then v else m.byte b := by
  induction m generalizing lo with
  | nil =>
    by_cases hv : v = unlistedByte <;> simp [Memory.set, hv, Memory.byte, eq_comm]
  | cons c rest ih =>
    obtain ⟨k, w⟩ := c
    obtain ⟨-, -, -, h4⟩ := Memory.wfFrom_cons.1 h
    have low : ∀ x, x ≤ k → Memory.byte rest x = unlistedByte := fun x hx => Memory.byte_of_lt h4 (by omega)
    rcases Nat.lt_trichotomy a k with hlt | rfl | hgt
    · rw [Memory.set_cons_lt hlt]
      have hka : k ≠ a := by omega
      by_cases hv : v = unlistedByte
      · by_cases hb : b = a
        · subst hb; simp [hv, Memory.byte_cons, hka, low _ hlt.le]
        · simp [hv, hb]
      · simp [hv, Memory.byte_cons, eq_comm]
    · rw [Memory.set_cons_self]
      by_cases hv : v = unlistedByte
      · by_cases hb : b = a
        · subst hb; simp [hv, low _ le_rfl]
        · simp [hv, hb, Memory.byte_cons, Ne.symm hb]
      · by_cases hb : b = a
        · simp [hv, hb, Memory.byte_cons]
        · simp [hv, hb, Memory.byte_cons, Ne.symm hb]
    · rw [Memory.set_cons_gt hgt, Memory.byte_cons, ih h4, Memory.byte_cons]
      by_cases hb : b = a
      · have hkb : k ≠ b := by omega
        simp [hb, hb ▸ hkb]
      · simp [hb]

/-- What a byte holds after a write: the value written at that address, what it held everywhere else. -/
theorem Memory.byte_set {m : Memory} (h : m.wf = true) (a b : Nat) (v : Byte) :
    (m.set a v).byte b = if b = a then v else m.byte b :=
  Memory.byte_set_from h

/-- What a byte holds after placing bytes from `a` up. -/
theorem Memory.byte_setBytes {m : Memory} (h : m.wf = true) (a b : Nat) (bytes : List Byte)
    (ha : a + bytes.length ≤ 256) :
    (m.setBytes a bytes).byte b = if a ≤ b then bytes.getD (b - a) (m.byte b) else m.byte b := by
  induction bytes generalizing m a with
  | nil => simp [Memory.setBytes]
  | cons v rest ih =>
    simp only [List.length_cons] at ha
    rw [Memory.setBytes, ih (Memory.wf_set h (by omega)) _ (by omega), Memory.byte_set h]
    by_cases hab : a ≤ b
    · by_cases hba : b = a
      · subst hba; simp
      · obtain ⟨d, hd⟩ : ∃ d, b - a = d + 1 := ⟨b - a - 1, by omega⟩
        have h1 : a + 1 ≤ b := by omega
        have h2 : b - (a + 1) = d := by omega
        simp [hab, hba, h1, h2, hd]
    · have h1 : ¬ a + 1 ≤ b := by omega
      have h2 : b ≠ a := by omega
      simp [hab, h1, h2]

theorem Memory.eq_of_byte_from {lo lo' : Nat} {m m' : Memory} (h : Memory.wfFrom lo m = true)
    (h' : Memory.wfFrom lo' m' = true) (hb : ∀ a, m.byte a = m'.byte a) : m = m' := by
  induction m generalizing lo lo' m' with
  | nil =>
    cases m' with
    | nil => rfl
    | cons c rest =>
      obtain ⟨k, v⟩ := c
      have := hb k
      simp [Memory.byte] at this
      exact absurd this.symm (Memory.wfFrom_cons.1 h').2.2.1
  | cons c rest ih =>
    obtain ⟨k, v⟩ := c
    obtain ⟨-, -, hv, h4⟩ := Memory.wfFrom_cons.1 h
    cases m' with
    | nil =>
      have := hb k
      simp [Memory.byte] at this
      exact absurd this hv
    | cons c' rest' =>
      obtain ⟨k', v'⟩ := c'
      obtain ⟨-, -, hv', h4'⟩ := Memory.wfFrom_cons.1 h'
      have hk : k = k' := by
        rcases Nat.lt_trichotomy k k' with hlt | heq | hgt
        · have := hb k
          have hne : k' ≠ k := by omega
          simp [Memory.byte, hne, Memory.byte_of_lt h4' (show k < k' + 1 by omega)] at this
          exact absurd this hv
        · exact heq
        · have := hb k'
          have hne : k ≠ k' := by omega
          simp [Memory.byte, hne, Memory.byte_of_lt h4 (show k' < k + 1 by omega)] at this
          exact absurd this.symm hv'
      subst hk
      have hvv : v = v' := by simpa [Memory.byte] using hb k
      subst hvv
      rw [ih h4 h4' fun a => by
        by_cases ha : k = a
        · subst ha
          rw [Memory.byte_of_lt h4 (by omega), Memory.byte_of_lt h4' (by omega)]
        · simpa [Memory.byte, ha] using hb a]

/-- Equal memories are equal data: canonical memories that hold the same bytes are the same list. -/
theorem Memory.eq_of_byte {m m' : Memory} (h : m.wf = true) (h' : m'.wf = true)
    (hb : ∀ a, m.byte a = m'.byte a) : m = m' :=
  Memory.eq_of_byte_from h h' hb

/-- Reset memory has the canonical form. -/
theorem State.reset_mem_wf : State.reset.mem.wf = true := rfl

end Sys2Proof.Machine
end

