-- ==== Sys2Proof/Laws/State.lean ====
section
/-! SUPPORT. One lemma per field per state update, each true by rfl, so that no proof unfolds an update. -/

namespace Sys2Proof.Machine

@[simp] theorem State.setPc_regs (s : State) (n : Nat) : (s.setPc n).regs = s.regs := rfl
@[simp] theorem State.setPc_pc (s : State) (n : Nat) : (s.setPc n).pc = n := rfl
@[simp] theorem State.setPc_fl (s : State) (n : Nat) : (s.setPc n).fl = s.fl := rfl
@[simp] theorem State.setPc_mem (s : State) (n : Nat) : (s.setPc n).mem = s.mem := rfl
@[simp] theorem State.setPc_out (s : State) (n : Nat) : (s.setPc n).out = s.out := rfl
@[simp] theorem State.setPc_run (s : State) (n : Nat) : (s.setPc n).run = s.run := rfl
@[simp] theorem State.setPc_sp (s : State) (n : Nat) : (s.setPc n).sp = s.sp := rfl

@[simp] theorem State.setFl_regs (s : State) (f : Flags) : (s.setFl f).regs = s.regs := rfl
@[simp] theorem State.setFl_pc (s : State) (f : Flags) : (s.setFl f).pc = s.pc := rfl
@[simp] theorem State.setFl_fl (s : State) (f : Flags) : (s.setFl f).fl = f := rfl
@[simp] theorem State.setFl_mem (s : State) (f : Flags) : (s.setFl f).mem = s.mem := rfl
@[simp] theorem State.setFl_out (s : State) (f : Flags) : (s.setFl f).out = s.out := rfl
@[simp] theorem State.setFl_run (s : State) (f : Flags) : (s.setFl f).run = s.run := rfl
@[simp] theorem State.setFl_sp (s : State) (f : Flags) : (s.setFl f).sp = s.sp := rfl

@[simp] theorem State.setRun_regs (s : State) (r : RunState) : (s.setRun r).regs = s.regs := rfl
@[simp] theorem State.setRun_pc (s : State) (r : RunState) : (s.setRun r).pc = s.pc := rfl
@[simp] theorem State.setRun_fl (s : State) (r : RunState) : (s.setRun r).fl = s.fl := rfl
@[simp] theorem State.setRun_mem (s : State) (r : RunState) : (s.setRun r).mem = s.mem := rfl
@[simp] theorem State.setRun_out (s : State) (r : RunState) : (s.setRun r).out = s.out := rfl
@[simp] theorem State.setRun_run (s : State) (r : RunState) : (s.setRun r).run = r := rfl
@[simp] theorem State.setRun_sp (s : State) (r : RunState) : (s.setRun r).sp = s.sp := rfl

@[simp] theorem State.setMem_regs (s : State) (m : Memory) : (s.setMem m).regs = s.regs := rfl
@[simp] theorem State.setMem_pc (s : State) (m : Memory) : (s.setMem m).pc = s.pc := rfl
@[simp] theorem State.setMem_fl (s : State) (m : Memory) : (s.setMem m).fl = s.fl := rfl
@[simp] theorem State.setMem_mem (s : State) (m : Memory) : (s.setMem m).mem = m := rfl
@[simp] theorem State.setMem_out (s : State) (m : Memory) : (s.setMem m).out = s.out := rfl
@[simp] theorem State.setMem_run (s : State) (m : Memory) : (s.setMem m).run = s.run := rfl
@[simp] theorem State.setMem_sp (s : State) (m : Memory) : (s.setMem m).sp = s.sp := rfl

@[simp] theorem State.setReg_regs (s : State) (i : Nat) (v : Byte) (h : i < 8) : (s.setReg i v h).regs = s.regs.set i v h := rfl
@[simp] theorem State.setReg_pc (s : State) (i : Nat) (v : Byte) (h : i < 8) : (s.setReg i v h).pc = s.pc := rfl
@[simp] theorem State.setReg_fl (s : State) (i : Nat) (v : Byte) (h : i < 8) : (s.setReg i v h).fl = s.fl := rfl
@[simp] theorem State.setReg_mem (s : State) (i : Nat) (v : Byte) (h : i < 8) : (s.setReg i v h).mem = s.mem := rfl
@[simp] theorem State.setReg_out (s : State) (i : Nat) (v : Byte) (h : i < 8) : (s.setReg i v h).out = s.out := rfl
@[simp] theorem State.setReg_run (s : State) (i : Nat) (v : Byte) (h : i < 8) : (s.setReg i v h).run = s.run := rfl

theorem State.setReg_sp (s : State) (i : Nat) (v : Byte) (h : i < 8) :
    (s.setReg i v h).sp = if i = 7 then v else s.sp := by
  simp only [State.sp, State.setReg, Vector.getElem_set]

@[simp] theorem State.setSp_regs (s : State) (v : Byte) : (s.setSp v).regs = s.regs.set 7 v (by decide) := rfl
@[simp] theorem State.setSp_pc (s : State) (v : Byte) : (s.setSp v).pc = s.pc := rfl
@[simp] theorem State.setSp_fl (s : State) (v : Byte) : (s.setSp v).fl = s.fl := rfl
@[simp] theorem State.setSp_mem (s : State) (v : Byte) : (s.setSp v).mem = s.mem := rfl
@[simp] theorem State.setSp_out (s : State) (v : Byte) : (s.setSp v).out = s.out := rfl
@[simp] theorem State.setSp_run (s : State) (v : Byte) : (s.setSp v).run = s.run := rfl
@[simp] theorem State.setSp_sp (s : State) (v : Byte) : (s.setSp v).sp = v := by simp [State.sp]

@[simp] theorem State.emit_regs (s : State) (v : Byte) : (s.emit v).regs = s.regs := rfl
@[simp] theorem State.emit_pc (s : State) (v : Byte) : (s.emit v).pc = s.pc := rfl
@[simp] theorem State.emit_fl (s : State) (v : Byte) : (s.emit v).fl = s.fl := rfl
@[simp] theorem State.emit_mem (s : State) (v : Byte) : (s.emit v).mem = s.mem := rfl
@[simp] theorem State.emit_out (s : State) (v : Byte) : (s.emit v).out = s.out ++ [v] := rfl
@[simp] theorem State.emit_run (s : State) (v : Byte) : (s.emit v).run = s.run := rfl
@[simp] theorem State.emit_sp (s : State) (v : Byte) : (s.emit v).sp = s.sp := rfl

@[simp] theorem State.advance_regs (s : State) (n : Nat) : (s.advance n).regs = s.regs := rfl
@[simp] theorem State.advance_pc (s : State) (n : Nat) : (s.advance n).pc = s.pc + n := rfl
@[simp] theorem State.advance_fl (s : State) (n : Nat) : (s.advance n).fl = s.fl := rfl
@[simp] theorem State.advance_mem (s : State) (n : Nat) : (s.advance n).mem = s.mem := rfl
@[simp] theorem State.advance_out (s : State) (n : Nat) : (s.advance n).out = s.out := rfl
@[simp] theorem State.advance_run (s : State) (n : Nat) : (s.advance n).run = s.run := rfl
@[simp] theorem State.advance_sp (s : State) (n : Nat) : (s.advance n).sp = s.sp := rfl

@[simp] theorem State.raised_regs (s : State) (e : FaultKind) : (s.raised e).regs = s.regs := rfl
@[simp] theorem State.raised_pc (s : State) (e : FaultKind) : (s.raised e).pc = s.pc := rfl
@[simp] theorem State.raised_fl (s : State) (e : FaultKind) : (s.raised e).fl = s.fl := rfl
@[simp] theorem State.raised_mem (s : State) (e : FaultKind) : (s.raised e).mem = s.mem := rfl
@[simp] theorem State.raised_out (s : State) (e : FaultKind) : (s.raised e).out = s.out := rfl
@[simp] theorem State.raised_run (s : State) (e : FaultKind) : (s.raised e).run = .faulted e s.pc := rfl
@[simp] theorem State.raised_sp (s : State) (e : FaultKind) : (s.raised e).sp = s.sp := rfl

/-- Two states are equal when every field is. -/
theorem State.ext_fields {s t : State} (h1 : s.regs = t.regs) (h2 : s.pc = t.pc) (h3 : s.fl = t.fl)
    (h4 : s.mem = t.mem) (h5 : s.out = t.out) (h6 : s.run = t.run) : s = t := by
  cases s; cases t; simp_all

end Sys2Proof.Machine
end

