-- ==== Sys2Proof/Laws/Ops.lean ====
section
/-! SUPPORT. For each shared operation, one lemma that says everything it can do. -/

namespace Sys2Proof.Machine

@[simp] theorem attempt_ok {α : Type} (s : State) (v : α) (k : α → Result) : attempt s (.ok v) k = k v := rfl

@[simp] theorem attempt_error {α : Type} (s : State) (e : FaultKind) (k : α → Result) :
    attempt s (.error e) k = .next (s.raised e) := rfl

/-- `attempt` answers a next state in two ways: the operation succeeded and what follows answers it, or the
operation's fault was raised on the instruction's first state. -/
theorem attempt_eq_next {α : Type} {s t : State} {x : Except FaultKind α} {k : α → Result} :
    attempt s x k = .next t ↔ (∃ v, x = .ok v ∧ k v = .next t) ∨ ∃ e, x = .error e ∧ t = s.raised e := by
  cases x <;> simp [eq_comm]

/-- `attempt` answers a next state whenever what follows does. -/
theorem attempt_answers {α : Type} {s : State} {x : Except FaultKind α} {k : α → Result}
    (h : ∀ v, ∃ t, k v = .next t) : ∃ t, attempt s x k = .next t := by
  cases x with
  | ok v => exact h v
  | error e => exact ⟨_, rfl⟩

theorem memRead_eq (s : State) (a : Nat) :
    memRead s a = if a < 256 then .ok (s.mem.byte a) else .error .addressOutOfRange := rfl

/-- A read at a byte's value is always in range. -/
@[simp] theorem memRead_byte (s : State) (v : Byte) : memRead s v.toNat = .ok (s.mem.byte v.toNat) := by
  simp [memRead_eq, v.isLt]

theorem memWrite_eq (s : State) (a : Nat) (v : Byte) :
    memWrite s a v = if a < 256 then .ok (s.setMem (s.mem.set a v)) else .error .addressOutOfRange := rfl

/-- A write at a byte's value is always in range. -/
@[simp] theorem memWrite_byte (s : State) (w v : Byte) :
    memWrite s w.toNat v = .ok (s.setMem (s.mem.set w.toNat v)) := by
  simp [memWrite_eq, w.isLt]

theorem readReg_of_lt (s : State) {i : Byte} (h : i.toNat < 8) : readReg s i = .ok s.regs[i.toNat] := by
  simp [readReg, h]

theorem readReg_of_ge (s : State) {i : Byte} (h : 8 ≤ i.toNat) : readReg s i = .error .invalidRegister := by
  simp [readReg, Nat.not_lt.2 h]

theorem writeReg_of_lt (s : State) {i : Byte} (v : Byte) (h : i.toNat < 8) :
    writeReg s i v = .ok (s.setReg i.toNat v h) := by
  simp [writeReg, h]

theorem writeReg_of_ge (s : State) {i : Byte} (v : Byte) (h : 8 ≤ i.toNat) :
    writeReg s i v = .error .invalidRegister := by
  simp [writeReg, Nat.not_lt.2 h]

/-- Everything a checked register read can do. -/
theorem readReg_cases (s : State) (i : Byte) :
    (∃ h : i.toNat < 8, readReg s i = .ok s.regs[i.toNat]) ∨
      (8 ≤ i.toNat ∧ readReg s i = .error .invalidRegister) := by
  by_cases h : i.toNat < 8
  · exact .inl ⟨h, readReg_of_lt s h⟩
  · exact .inr ⟨Nat.not_lt.1 h, readReg_of_ge s (Nat.not_lt.1 h)⟩

/-- Everything a checked register write can do. -/
theorem writeReg_cases (s : State) (i v : Byte) :
    (∃ h : i.toNat < 8, writeReg s i v = .ok (s.setReg i.toNat v h)) ∨
      (8 ≤ i.toNat ∧ writeReg s i v = .error .invalidRegister) := by
  by_cases h : i.toNat < 8
  · exact .inl ⟨h, writeReg_of_lt s v h⟩
  · exact .inr ⟨Nat.not_lt.1 h, writeReg_of_ge s v (Nat.not_lt.1 h)⟩

/-- A register read depends on the registers alone. -/
theorem readReg_congr {s t : State} (h : s.regs = t.regs) (i : Byte) : readReg s i = readReg t i := by
  simp [readReg, h]

@[simp] theorem readReg_setMem (s : State) (m : Memory) (i : Byte) : readReg (s.setMem m) i = readReg s i := rfl

/-- Everything `SPDec()` can do. -/
theorem spDec_cases (s : State) :
    (s.sp = 0 ∧ spDec s = .error .addressOutOfRange) ∨ (s.sp ≠ 0 ∧ spDec s = .ok (s.setSp (s.sp - 1))) := by
  by_cases h : s.sp = 0
  · exact .inl ⟨h, by simp [spDec, h]⟩
  · have hn : s.sp.toNat ≠ 0 := fun e => h (BitVec.eq_of_toNat_eq (by simpa using e))
    have hlt : ¬ s.sp.toNat < 1 := by omega
    have heq : BitVec.ofNat 8 (s.sp.toNat - 1) = s.sp - 1 := by
      have := s.sp.isLt
      apply BitVec.eq_of_toNat_eq
      simp only [BitVec.toNat_ofNat, BitVec.toNat_sub]
      simp
      omega
    exact .inr ⟨h, by simp [spDec, hlt, heq]⟩

/-- Everything `SPInc()` can do. -/
theorem spInc_cases (s : State) :
    (s.sp = 255 ∧ spInc s = .error .addressOutOfRange) ∨ (s.sp ≠ 255 ∧ spInc s = .ok (s.setSp (s.sp + 1))) := by
  by_cases h : s.sp = 255
  · exact .inl ⟨h, by simp [spInc, h]⟩
  · have hn : s.sp.toNat ≠ 255 := fun e => h (BitVec.eq_of_toNat_eq (by simpa using e))
    have hlt : ¬ s.sp.toNat + 1 > 255 := by have := s.sp.isLt; omega
    have heq : BitVec.ofNat 8 (s.sp.toNat + 1) = s.sp + 1 := by
      apply BitVec.eq_of_toNat_eq
      simp [BitVec.toNat_add]
    refine .inr ⟨h, ?_⟩
    rw [spInc, if_neg hlt, heq]

theorem spDec_of_ne {s : State} (h : s.sp ≠ 0) : spDec s = .ok (s.setSp (s.sp - 1)) :=
  (spDec_cases s).elim (fun h' => absurd h'.1 h) And.right

theorem spInc_of_ne {s : State} (h : s.sp ≠ 255) : spInc s = .ok (s.setSp (s.sp + 1)) :=
  (spInc_cases s).elim (fun h' => absurd h'.1 h) And.right

/-- Below a byte that is at least 1. -/
theorem toNat_pred {v : Byte} (h : 1 ≤ v.toNat) : (v - 1).toNat = v.toNat - 1 := by
  have := v.isLt
  simp [BitVec.toNat_sub]
  omega

/-- Above a byte that is at most 254. -/
theorem toNat_succ {v : Byte} (h : v.toNat ≤ 254) : (v + 1).toNat = v.toNat + 1 := by
  simp [BitVec.toNat_add]
  omega

/-- Everything the ALU can do. -/
theorem alu_cases (op : AluOp) (u v : Byte) :
    (op = .add ∧ alu op u v = .ok (.result (u + v))) ∨ (op = .sub ∧ alu op u v = .ok (.result (u - v))) ∨
      (op = .mul ∧ alu op u v = .ok (.result (u * v))) ∨
      (op = .cmp ∧ alu op u v = .ok (.flags (compareFlags u v))) ∨
      ((∃ n, op = .other n) ∧ alu op u v = .error .unsupportedOperation) := by
  have hadd : BitVec.ofNat 8 (u.toNat + v.toNat) = u + v := by
    apply BitVec.eq_of_toNat_eq; simp [BitVec.toNat_add]
  have hsub : BitVec.ofInt 8 ((u.toNat : Int) - (v.toNat : Int)) = u - v := by
    apply BitVec.eq_of_toNat_eq
    have hu := u.isLt
    have hv := v.isLt
    simp only [BitVec.toNat_ofInt, BitVec.toNat_sub]
    omega
  have hmul : BitVec.ofNat 8 (u.toNat * v.toNat) = u * v := by
    apply BitVec.eq_of_toNat_eq; simp [BitVec.toNat_mul]
  cases op <;> simp [alu, hadd, hsub, hmul]

end Sys2Proof.Machine
end

