-- ==== Sys2Proof/Laws/Exec.lean ====
section
/-! SUPPORT. One equation per meaning: everything it can answer, as a case split on the state and the operands.
Proofs rewrite with these instead of unfolding a meaning. -/

namespace Sys2Proof.Machine

/-- Redirecting through a register: the target, or InvalidRegister. -/
theorem jumpTo_eq (s0 s : State) (a : Byte) :
    jumpTo s0 s a = if h : a.toNat < 8 then .next (s.setPc s.regs[a.toNat].toNat)
      else .next (s0.raised .invalidRegister) := by
  rcases readReg_cases s a with ⟨h, hr⟩ | ⟨h, hr⟩
  · simp [jumpTo, targetOperand, hr, h, Except.map]
  · simp [jumpTo, targetOperand, hr, Nat.not_lt.2 h, Except.map]

/-- What the ALU instructions share: both register operands name registers, or InvalidRegister. -/
theorem aluInstr_eq (op : AluOp) (a b : Byte) (s : State) :
    aluInstr op a b s = if h : a.toNat < 8 ∧ b.toNat < 8 then
        attempt s (alu op (s.regs[a.toNat]'h.1) (s.regs[b.toNat]'h.2)) fun out =>
          attempt s (writeAluOut s a out) fun s1 => .next (s1.advance 3)
      else .next (s.raised .invalidRegister) := by
  rcases readReg_cases s a with ⟨ha, hra⟩ | ⟨ha, hra⟩
  · rcases readReg_cases s b with ⟨hb, hrb⟩ | ⟨hb, hrb⟩
    · simp [aluInstr, srcOperand, hra, hrb, ha, hb]
    · simp [aluInstr, srcOperand, hra, hrb, Nat.not_lt.2 hb]
  · simp [aluInstr, srcOperand, hra, Nat.not_lt.2 ha]

theorem execHlt_eq (s : State) : execHlt s = .next (s.setRun .halted) := rfl

theorem execLdi_eq (a b : Byte) (s : State) :
    execLdi a b s = if h : a.toNat < 8 then .next ((s.setReg a.toNat b h).advance 3)
      else .next (s.raised .invalidRegister) := by
  rcases writeReg_cases s a b with ⟨h, hw⟩ | ⟨h, hw⟩
  · simp [execLdi, immOperand, hw, h]
  · simp [execLdi, immOperand, hw, Nat.not_lt.2 h]

theorem execPrn_eq (a : Byte) (s : State) :
    execPrn a s = if h : a.toNat < 8 then .next ((s.emit s.regs[a.toNat]).advance 2)
      else .next (s.raised .invalidRegister) := by
  rcases readReg_cases s a with ⟨h, hr⟩ | ⟨h, hr⟩
  · simp [execPrn, srcOperand, hr, h]
  · simp [execPrn, srcOperand, hr, Nat.not_lt.2 h]

theorem execAdd_eq (a b : Byte) (s : State) :
    execAdd a b s = if h : a.toNat < 8 ∧ b.toNat < 8 then
        .next ((s.setReg a.toNat ((s.regs[a.toNat]'h.1) + (s.regs[b.toNat]'h.2)) h.1).advance 3)
      else .next (s.raised .invalidRegister) := by
  rw [execAdd, aluInstr_eq]
  split
  case isTrue h =>
    obtain ⟨-, e⟩ | ⟨e, -⟩ | ⟨e, -⟩ | ⟨e, -⟩ | ⟨⟨_, e⟩, -⟩ :=
      alu_cases .add (s.regs[a.toNat]'h.1) (s.regs[b.toNat]'h.2)
    all_goals simp_all [writeAluOut, writeReg_of_lt s _ h.1]
  case isFalse h => rfl

theorem execSub_eq (a b : Byte) (s : State) :
    execSub a b s = if h : a.toNat < 8 ∧ b.toNat < 8 then
        .next ((s.setReg a.toNat ((s.regs[a.toNat]'h.1) - (s.regs[b.toNat]'h.2)) h.1).advance 3)
      else .next (s.raised .invalidRegister) := by
  rw [execSub, aluInstr_eq]
  split
  case isTrue h =>
    obtain ⟨e, -⟩ | ⟨-, e⟩ | ⟨e, -⟩ | ⟨e, -⟩ | ⟨⟨_, e⟩, -⟩ :=
      alu_cases .sub (s.regs[a.toNat]'h.1) (s.regs[b.toNat]'h.2)
    all_goals simp_all [writeAluOut, writeReg_of_lt s _ h.1]
  case isFalse h => rfl

theorem execMul_eq (a b : Byte) (s : State) :
    execMul a b s = if h : a.toNat < 8 ∧ b.toNat < 8 then
        .next ((s.setReg a.toNat ((s.regs[a.toNat]'h.1) * (s.regs[b.toNat]'h.2)) h.1).advance 3)
      else .next (s.raised .invalidRegister) := by
  rw [execMul, aluInstr_eq]
  split
  case isTrue h =>
    obtain ⟨e, -⟩ | ⟨e, -⟩ | ⟨-, e⟩ | ⟨e, -⟩ | ⟨⟨_, e⟩, -⟩ :=
      alu_cases .mul (s.regs[a.toNat]'h.1) (s.regs[b.toNat]'h.2)
    all_goals simp_all [writeAluOut, writeReg_of_lt s _ h.1]
  case isFalse h => rfl

theorem execCmp_eq (a b : Byte) (s : State) :
    execCmp a b s = if h : a.toNat < 8 ∧ b.toNat < 8 then
        .next ((s.setFl (compareFlags (s.regs[a.toNat]'h.1) (s.regs[b.toNat]'h.2))).advance 3)
      else .next (s.raised .invalidRegister) := by
  rw [execCmp, aluInstr_eq]
  rfl

theorem execJmp_eq (a : Byte) (s : State) :
    execJmp a s = if h : a.toNat < 8 then .next (s.setPc s.regs[a.toNat].toNat)
      else .next (s.raised .invalidRegister) := jumpTo_eq s s a

theorem execJeq_eq (a : Byte) (s : State) :
    execJeq a s = if s.fl = .eq then
        (if h : a.toNat < 8 then .next (s.setPc s.regs[a.toNat].toNat) else .next (s.raised .invalidRegister))
      else .next (s.advance 2) := by
  rw [execJeq, jumpTo_eq]

theorem execJne_eq (a : Byte) (s : State) :
    execJne a s = if s.fl ≠ .eq then
        (if h : a.toNat < 8 then .next (s.setPc s.regs[a.toNat].toNat) else .next (s.raised .invalidRegister))
      else .next (s.advance 2) := by
  rw [execJne, jumpTo_eq]

/-- PUSH: the stack pointer is checked first; the register is read after it is decremented. -/
theorem execPush_eq (a : Byte) (s : State) :
    execPush a s = if s.sp = 0 then .next (s.raised .addressOutOfRange)
      else if h : a.toNat < 8 then
        .next (((s.setSp (s.sp - 1)).setMem
          (s.mem.set (s.sp - 1).toNat (s.setSp (s.sp - 1)).regs[a.toNat])).advance 2)
      else .next (s.raised .invalidRegister) := by
  rcases spDec_cases s with ⟨h0, hd⟩ | ⟨h0, hd⟩
  · simp only [execPush, hd, attempt_error, if_pos h0]
  · rcases readReg_cases (s.setSp (s.sp - 1)) a with ⟨h, hr⟩ | ⟨h, hr⟩
    · simp only [execPush, srcOperand, hd, hr, attempt_ok, State.setSp_sp, memWrite_byte, State.setSp_mem,
        if_neg h0, dif_pos h]
    · simp only [execPush, srcOperand, hd, hr, attempt_ok, attempt_error, if_neg h0, dif_neg (Nat.not_lt.2 h)]

/-- POP: the register is checked first; the stack pointer is incremented after the register is written. -/
theorem execPop_eq (a : Byte) (s : State) :
    execPop a s = if h : a.toNat < 8 then
        (if (s.setReg a.toNat (s.mem.byte s.sp.toNat) h).sp = 255 then .next (s.raised .addressOutOfRange)
          else .next (((s.setReg a.toNat (s.mem.byte s.sp.toNat) h).setSp
            ((s.setReg a.toNat (s.mem.byte s.sp.toNat) h).sp + 1)).advance 2))
      else .next (s.raised .invalidRegister) := by
  rcases writeReg_cases s a (s.mem.byte s.sp.toNat) with ⟨h, hw⟩ | ⟨h, hw⟩
  · rcases spInc_cases (s.setReg a.toNat (s.mem.byte s.sp.toNat) h) with ⟨h1, hi⟩ | ⟨h1, hi⟩
    · simp only [execPop, memRead_byte, hw, hi, attempt_ok, attempt_error, dif_pos h, if_pos h1]
    · simp only [execPop, memRead_byte, hw, hi, attempt_ok, dif_pos h, if_neg h1]
  · simp only [execPop, memRead_byte, hw, attempt_ok, attempt_error, dif_neg (Nat.not_lt.2 h)]

/-- CALL: the stack pointer is checked first; the target is read after it is decremented. -/
theorem execCall_eq (a : Byte) (s : State) :
    execCall a s = if s.sp = 0 then .next (s.raised .addressOutOfRange)
      else if h : a.toNat < 8 then
        .next (((s.setSp (s.sp - 1)).setMem (s.mem.set (s.sp - 1).toNat (returnAddress s))).setPc
          (s.setSp (s.sp - 1)).regs[a.toNat].toNat)
      else .next (s.raised .invalidRegister) := by
  rcases spDec_cases s with ⟨h0, hd⟩ | ⟨h0, hd⟩
  · simp only [execCall, hd, attempt_error, if_pos h0]
  · simp only [execCall, hd, attempt_ok, State.setSp_sp, memWrite_byte, State.setSp_mem, jumpTo_eq, if_neg h0]
    rfl

theorem execRet_eq (s : State) :
    execRet s = if s.sp = 255 then .next (s.raised .addressOutOfRange)
      else .next ((s.setSp (s.sp + 1)).setPc (s.mem.byte s.sp.toNat).toNat) := by
  rcases spInc_cases s with ⟨h, hi⟩ | ⟨h, hi⟩
  · simp only [execRet, memRead_byte, hi, attempt_ok, attempt_error, if_pos h]
  · simp only [execRet, memRead_byte, hi, attempt_ok, if_neg h]

end Sys2Proof.Machine
end

