-- ==== Sys2Proof/Laws/PerInstr.lean ====
section
/-! SUPPORT. What holds of every instruction as syntax, one lemma per constructor. -/

/-- The encoding has the instruction's length, begins with the byte of its opcode, and the bits [7:6] of that
byte are the operand count and its bit [4] is 1 exactly for the instructions that set the pc (30_encoding.md R90,
R94; the byte values are the default map's, log entry 1). -/
def Sys2Proof.Laws.EncodeShape.Statement (i : Sys2Proof.Instr) : Prop :=
  (Sys2Proof.encode Sys2Proof.opcodeMap i).length = i.length ∧
  (Sys2Proof.encode Sys2Proof.opcodeMap i).head? = some (Sys2Proof.opcodeMap i.opcode) ∧
  (Sys2Proof.opcodeMap i.opcode).toNat / 64 = i.operands.length ∧
  ((Sys2Proof.opcodeMap i.opcode).getLsbD 4 = true ↔ i.opcode ∈ [.jmp, .jeq, .jne, .call, .ret])

namespace Sys2Proof.Laws.EncodeShape

theorem shape_bit4 (o : Opcode) :
    (opcodeMap o).getLsbD 4 = true ↔ o ∈ [Opcode.jmp, .jeq, .jne, .call, .ret] := by
  cases o <;> decide

theorem shape_count (o : Opcode) : (opcodeMap o).toNat / 64 = o.operandCount := by
  cases o <;> decide

theorem hlt : Statement .hlt := ⟨rfl, rfl, shape_count _, shape_bit4 _⟩
theorem ldi (a b : Byte) : Statement (.ldi a b) := ⟨rfl, rfl, shape_count _, shape_bit4 _⟩
theorem prn (a : Byte) : Statement (.prn a) := ⟨rfl, rfl, shape_count _, shape_bit4 _⟩
theorem add (a b : Byte) : Statement (.add a b) := ⟨rfl, rfl, shape_count _, shape_bit4 _⟩
theorem sub (a b : Byte) : Statement (.sub a b) := ⟨rfl, rfl, shape_count _, shape_bit4 _⟩
theorem mul (a b : Byte) : Statement (.mul a b) := ⟨rfl, rfl, shape_count _, shape_bit4 _⟩
theorem cmp (a b : Byte) : Statement (.cmp a b) := ⟨rfl, rfl, shape_count _, shape_bit4 _⟩
theorem jmp (a : Byte) : Statement (.jmp a) := ⟨rfl, rfl, shape_count _, shape_bit4 _⟩
theorem jeq (a : Byte) : Statement (.jeq a) := ⟨rfl, rfl, shape_count _, shape_bit4 _⟩
theorem jne (a : Byte) : Statement (.jne a) := ⟨rfl, rfl, shape_count _, shape_bit4 _⟩
theorem push (a : Byte) : Statement (.push a) := ⟨rfl, rfl, shape_count _, shape_bit4 _⟩
theorem pop (a : Byte) : Statement (.pop a) := ⟨rfl, rfl, shape_count _, shape_bit4 _⟩
theorem call (a : Byte) : Statement (.call a) := ⟨rfl, rfl, shape_count _, shape_bit4 _⟩
theorem ret : Statement .ret := ⟨rfl, rfl, shape_count _, shape_bit4 _⟩

end Sys2Proof.Laws.EncodeShape
end

