-- ==== Sys2Proof/Laws/Step.lean ====
section
/-! SUPPORT. Everything a fetch and a step can do. -/

namespace Sys2Proof.Machine

/-- A fetch succeeds exactly where all three bytes are in range and the first is an opcode. -/
theorem fetch_eq_ok {m : OpcodeMap} {s : State} {i : Instr} :
    fetch m s = .ok i ↔ s.pc ≤ 253 ∧ ∃ o, decodeOpcode m (s.mem.byte s.pc) = some o ∧
      i = o.build (s.mem.byte (s.pc + 1)) (s.mem.byte (s.pc + 2)) := by
  by_cases h0 : s.pc < 256
  · cases hd : decodeOpcode m (s.mem.byte s.pc) with
    | none => simp [fetch, memRead_eq, h0, hd]
    | some o =>
      by_cases h1 : s.pc + 1 < 256
      · by_cases h2 : s.pc + 2 < 256
        · have : s.pc ≤ 253 := by omega
          simp [fetch, memRead_eq, h0, hd, h1, h2, this, eq_comm]
        · have : ¬ s.pc ≤ 253 := by omega
          simp [fetch, memRead_eq, h0, hd, h1, h2, this]
      · have : ¬ s.pc ≤ 253 := by omega
        simp [fetch, memRead_eq, h0, hd, h1, this]
  · have : ¬ s.pc ≤ 253 := by omega
    simp [fetch, memRead_eq, h0, this]

/-- Why a fetch fails, in the order of 60_exceptions.md R203. -/
theorem fetch_eq_error {m : OpcodeMap} {s : State} {e : FaultKind} :
    fetch m s = .error e ↔ (256 ≤ s.pc ∧ e = .addressOutOfRange) ∨
      (s.pc < 256 ∧ decodeOpcode m (s.mem.byte s.pc) = none ∧ e = .invalidOpcode) ∨
      (254 ≤ s.pc ∧ s.pc < 256 ∧ decodeOpcode m (s.mem.byte s.pc) ≠ none ∧ e = .addressOutOfRange) := by
  by_cases h0 : s.pc < 256
  · have hn : ¬ 256 ≤ s.pc := by omega
    cases hd : decodeOpcode m (s.mem.byte s.pc) with
    | none => simp [fetch, memRead_eq, h0, hd, hn, eq_comm]
    | some o =>
      by_cases h1 : s.pc + 1 < 256
      · by_cases h2 : s.pc + 2 < 256
        · have : ¬ 254 ≤ s.pc := by omega
          simp [fetch, memRead_eq, h0, hd, h1, h2, hn, this]
        · have : 254 ≤ s.pc := by omega
          simp [fetch, memRead_eq, h0, hd, h1, h2, hn, this, eq_comm]
      · have : 254 ≤ s.pc := by omega
        simp [fetch, memRead_eq, h0, hd, h1, hn, this, eq_comm]
  · have : 256 ≤ s.pc := by omega
    simp [fetch, memRead_eq, h0, this, eq_comm]

/-- A step answers a next state only from `Running`: a fetch fault is raised, or the fetched instruction runs. -/
theorem stepWith_eq_next {m : OpcodeMap} {s t : State} :
    stepWith m s = .next t ↔ s.run = .running ∧
      ((∃ e, fetch m s = .error e ∧ t = s.raised e) ∨ ∃ i, fetch m s = .ok i ∧ exec i s = .next t) := by
  cases hr : s.run with
  | halted => simp [stepWith, hr]
  | faulted k p => simp [stepWith, hr]
  | running => cases hf : fetch m s <;> simp [stepWith, hr, hf, raise, eq_comm]

/-- A step in `Running` whose fetch succeeds runs the fetched instruction. -/
theorem stepWith_of_fetch {m : OpcodeMap} {s : State} {i : Instr} (hr : s.run = .running)
    (hf : fetch m s = .ok i) : stepWith m s = exec i s := by
  simp [stepWith, hr, hf]

/-- A step in `Running` whose fetch fails raises that fault. -/
theorem stepWith_of_fetch_error {m : OpcodeMap} {s : State} {e : FaultKind} (hr : s.run = .running)
    (hf : fetch m s = .error e) : stepWith m s = .next (s.raised e) := by
  simp [stepWith, hr, hf, raise]

/-- What any instruction does to `run`: it raises a fault on the state it began in (never UnsupportedOperation), or
is HLT, or leaves `run` alone. -/
theorem exec_run_cases {i : Instr} {s t : State} (h : exec i s = .next t) :
    (∃ k, k ≠ .unsupportedOperation ∧ t = s.raised k) ∨ (i = .hlt ∧ t = s.setRun .halted) ∨ t.run = s.run := by
  cases i
  case hlt => exact .inr (.inl ⟨rfl, by simpa [exec, execHlt_eq] using h.symm⟩)
  all_goals
    simp only [exec, execLdi_eq, execPrn_eq, execAdd_eq, execSub_eq, execMul_eq, execCmp_eq, execJmp_eq, execJeq_eq,
      execJne_eq, execPush_eq, execPop_eq, execCall_eq, execRet_eq] at h
    split_ifs at h <;> (injection h with h; subst h) <;>
      first | exact .inl ⟨_, by decide, rfl⟩ | exact .inr (.inr rfl)

/-- A fetch where all three bytes are in range and the first is a row's opcode byte. -/
theorem fetch_of_opcode {m : OpcodeMap} (hm : m.Injective) {s : State} {o : Opcode} (hp : s.pc ≤ 253)
    (hb : s.mem.byte s.pc = m o) :
    fetch m s = .ok (o.build (s.mem.byte (s.pc + 1)) (s.mem.byte (s.pc + 2))) :=
  fetch_eq_ok.2 ⟨hp, o, by rw [hb, decodeOpcode_self hm], rfl⟩

end Sys2Proof.Machine
end

