-- ==== Sys2Proof/Tests/Slice0.lean ====
section
/-! SUPPORT. The model's own tests. Expected results are the vectors of spec/95_test_vectors.md (named F, B, A, J, S,
W, P there) or are read off 30_encoding.md R93. And one witness for every statement with hypotheses: concrete data
that meets all of them together, at the boundary of each clause. -/

namespace Sys2Proof.Tests

open Sys2Proof Sys2Proof.Machine

/-! ## Helpers -/

/-- The next state of an answer. -/
def next? : Result → Option State
  | .next t => some t
  | .fault _ => none
  | .refused _ => none

/-- The reset state at a pc, with the instruction bytes there. -/
def at' (pc : Nat) (bytes : List Byte) : State :=
  (State.reset.setPc pc).setMem (Memory.setBytes [] pc bytes)

/-- Put a value in a register. -/
def withReg (s : State) (i : Fin 8) (v : Byte) : State := s.setReg i.val v i.isLt

/-- Put a byte in memory. -/
def withByte (s : State) (a : Nat) (v : Byte) : State := s.setMem (s.mem.set a v)

/-- One field of the state after one step. -/
def stepTo {α : Type} (s : State) (f : State → α) : Option α := (next? (step s)).map f

/-! ## WellFormed refuses an ill-formed term for each check -/

theorem test_wellFormed_refuses_ldi_8_0 : (Instr.ldi 8 0).wellFormed = false := by decide
theorem test_wellFormed_refuses_prn_8 : (Instr.prn 8).wellFormed = false := by decide
theorem test_wellFormed_refuses_add_8_0 : (Instr.add 8 0).wellFormed = false := by decide
theorem test_wellFormed_refuses_add_0_8 : (Instr.add 0 8).wellFormed = false := by decide
theorem test_wellFormed_refuses_sub_255_0 : (Instr.sub 255 0).wellFormed = false := by decide
theorem test_wellFormed_refuses_sub_0_255 : (Instr.sub 0 255).wellFormed = false := by decide
theorem test_wellFormed_refuses_mul_8_0 : (Instr.mul 8 0).wellFormed = false := by decide
theorem test_wellFormed_refuses_mul_0_8 : (Instr.mul 0 8).wellFormed = false := by decide
theorem test_wellFormed_refuses_cmp_9_0 : (Instr.cmp 9 0).wellFormed = false := by decide
theorem test_wellFormed_refuses_cmp_0_9 : (Instr.cmp 0 9).wellFormed = false := by decide
theorem test_wellFormed_refuses_jmp_8 : (Instr.jmp 8).wellFormed = false := by decide
theorem test_wellFormed_refuses_jeq_8 : (Instr.jeq 8).wellFormed = false := by decide
theorem test_wellFormed_refuses_jne_8 : (Instr.jne 8).wellFormed = false := by decide
theorem test_wellFormed_refuses_push_8 : (Instr.push 8).wellFormed = false := by decide
theorem test_wellFormed_refuses_pop_8 : (Instr.pop 8).wellFormed = false := by decide
theorem test_wellFormed_refuses_call_8 : (Instr.call 8).wellFormed = false := by decide
theorem test_wellFormed_accepts_immediate_255 : (Instr.ldi 7 255).wellFormed = true := by decide
theorem test_wellFormed_accepts_highest_registers : (Instr.add 7 7).wellFormed = true := by decide

/-! ## Decoding: one word of each row, written out bit by bit from R93 -/

theorem test_decode_hlt : decode opcodeMap [0b00000001] = .ok (.hlt, []) := by rfl
theorem test_decode_ldi : decode opcodeMap [0b10000010, 0b00000101, 0b11111111] = .ok (.ldi 5 255, []) := by rfl
theorem test_decode_prn : decode opcodeMap [0b01000111, 0b00000111] = .ok (.prn 7, []) := by rfl
theorem test_decode_add : decode opcodeMap [0b10100000, 0b00000000, 0b00000001] = .ok (.add 0 1, []) := by rfl
theorem test_decode_sub : decode opcodeMap [0b10100001, 0b00000010, 0b00000011] = .ok (.sub 2 3, []) := by rfl
theorem test_decode_mul : decode opcodeMap [0b10100010, 0b00000100, 0b00000101] = .ok (.mul 4 5, []) := by rfl
theorem test_decode_cmp : decode opcodeMap [0b10100111, 0b00000110, 0b00000111] = .ok (.cmp 6 7, []) := by rfl
theorem test_decode_jmp : decode opcodeMap [0b01010100, 0b00000010] = .ok (.jmp 2, []) := by rfl
theorem test_decode_jeq : decode opcodeMap [0b01010101, 0b00000011] = .ok (.jeq 3, []) := by rfl
theorem test_decode_jne : decode opcodeMap [0b01010110, 0b11111111] = .ok (.jne 255, []) := by rfl
theorem test_decode_push : decode opcodeMap [0b01000101, 0b00000000] = .ok (.push 0, []) := by rfl
theorem test_decode_pop : decode opcodeMap [0b01000110, 0b00000100] = .ok (.pop 4, []) := by rfl
theorem test_decode_call : decode opcodeMap [0b01010000, 0b00000001] = .ok (.call 1, []) := by rfl
theorem test_decode_ret : decode opcodeMap [0b00010001] = .ok (.ret, []) := by rfl
theorem test_decode_keeps_the_rest : decode opcodeMap [0x47, 0, 0x01] = .ok (.prn 0, [0x01]) := by rfl
theorem test_decode_truncated : decode opcodeMap [0x82, 0] = .error .truncated := by rfl
theorem test_decode_refuses_zero : decode opcodeMap [0x00, 0, 0] = .error (.invalidOpcode 0x00) := by rfl
/-- Vector F8: 0xA8 looks like an ALU row (R94) and is in no row. -/
theorem test_decode_refuses_A8 : decode opcodeMap [0xA8, 0, 1] = .error (.invalidOpcode 0xA8) := by rfl
theorem test_encode_ldi : encode opcodeMap (.ldi 0 8) = [0x82, 0x00, 0x08] := by decide
/-- First byte least significant: LDI R0, 8 is the number 0x080082. -/
theorem test_tableWord_ldi : decodeTableWord 24 0x080082 = some (.ldi 0 8) := by decide
theorem test_tableWord_reads_no_bit_above_nbits : decodeTableWord 8 0x080082 = some (.ldi 0 0) := by decide
theorem test_withFetchWord_runs_the_word :
    (next? (step (State.reset.withFetchWord 24 0x080082))).map (fun t => (t.regs[0], t.pc)) = some (8, 3) := by decide

/-! ## Fetch, decode and terminal states -/

/-- F1. -/
theorem test_fetch_at_256 : stepTo (at' 256 []) State.run = some (.faulted .addressOutOfRange 256) := by decide
/-- F2. -/
theorem test_fetch_hlt_at_254 : stepTo (at' 254 [0x01]) State.run = some (.faulted .addressOutOfRange 254) := by decide
/-- F3. -/
theorem test_fetch_ret_at_255 : stepTo (at' 255 [0x11]) State.run = some (.faulted .addressOutOfRange 255) := by decide
/-- F4: decode before operand fetch. -/
theorem test_fetch_zero_at_254 : stepTo (at' 254 []) State.run = some (.faulted .invalidOpcode 254) := by decide
/-- F6: the advance is not wrapped. -/
theorem test_advance_to_256 : stepTo (at' 253 [0x82, 0x00, 0x07]) (fun t => (t.regs[0], t.pc, t.run)) = some (7, 256, .running) := by decide
/-- R120: no step after HLT. -/
theorem test_no_step_when_halted : step (State.reset.setRun .halted) = .fault .runHalted := by rfl
theorem test_no_step_when_faulted : step (State.reset.setRun (.faulted .invalidOpcode 3)) = .fault (.runFaulted .invalidOpcode 3) := by rfl

/-! ## Instructions, at most two each -/

/-- B1, F9: the ignored operand bytes are only fetched. -/
theorem test_hlt : stepTo (at' 11 [0x01, 0xFF, 0xFF]) (fun t => (t.run, t.pc, t.regs)) = some (.halted, 11, State.reset.regs) := by decide
/-- F5. -/
theorem test_hlt_at_253 : stepTo (at' 253 [0x01]) (fun t => (t.run, t.pc)) = some (.halted, 253) := by decide
/-- W1. -/
theorem test_ldi : stepTo (at' 0 [0x82, 0x05, 0xFF]) (fun t => (t.regs[5], t.pc)) = some (255, 3) := by decide
/-- B5, P8. -/
theorem test_ldi_invalid_register : stepTo (at' 0 [0x82, 0xFF, 0x01]) (fun t => (t.run, t.pc, t.regs)) = some (.faulted .invalidRegister 0, 0, State.reset.regs) := by decide
/-- B7. -/
theorem test_prn : stepTo (at' 0 [0x47, 0x07]) (fun t => (t.out, t.pc)) = some ([244], 2) := by decide
/-- B9. -/
theorem test_prn_invalid_register : stepTo (at' 0 [0x47, 0x09]) (fun t => (t.out, t.run)) = some ([], .faulted .invalidRegister 0) := by decide
/-- A1. -/
theorem test_add_wraps : stepTo (withReg (withReg (at' 0 [0xA0, 0, 1]) 0 200) 1 100) (fun t => (t.regs[0], t.regs[1], t.pc, t.fl)) = some (44, 100, 3, .none) := by decide
/-- A4: the source is also the destination. -/
theorem test_add_to_itself : stepTo (withReg (at' 0 [0xA0, 0, 0]) 0 200) (fun t => t.regs[0]) = some 144 := by decide
/-- A7. -/
theorem test_sub_wraps : stepTo (withReg (withReg (at' 0 [0xA1, 0, 1]) 0 3) 1 5) (fun t => t.regs[0]) = some 254 := by decide
/-- A26. -/
theorem test_sub_stack_pointer : stepTo (withReg (at' 0 [0xA1, 7, 0]) 0 12) (fun t => t.sp) = some 232 := by decide
/-- A15. -/
theorem test_mul : stepTo (withReg (withReg (at' 0 [0xA2, 0, 1]) 0 100) 1 3) (fun t => t.regs[0]) = some 44 := by decide
/-- A13. -/
theorem test_mul_255 : stepTo (withReg (withReg (at' 0 [0xA2, 0, 1]) 0 255) 1 255) (fun t => t.regs[0]) = some 1 := by decide
/-- A21: unsigned. -/
theorem test_cmp_unsigned : stepTo (withReg (withReg (at' 0 [0xA7, 0, 1]) 0 128) 1 1) (fun t => (t.fl, t.pc)) = some (.gt, 3) := by decide
/-- A25. -/
theorem test_cmp_invalid_register : stepTo ((at' 0 [0xA7, 9, 0]).setFl .gt) (fun t => (t.fl, t.run)) = some (.gt, .faulted .invalidRegister 0) := by decide
/-- J1. -/
theorem test_jmp : stepTo (withReg (at' 20 [0x54, 2]) 2 12) State.pc = some 12 := by decide
/-- J2. -/
theorem test_jmp_invalid_register : stepTo (at' 20 [0x54, 8]) State.run = some (.faulted .invalidRegister 20) := by decide
/-- J4. -/
theorem test_jeq_taken : stepTo ((withReg (at' 18 [0x55, 3]) 3 30).setFl .eq) State.pc = some 30 := by decide
/-- J8: not taken, no fault. -/
theorem test_jeq_not_taken : stepTo (at' 18 [0x55, 8]) (fun t => (t.pc, t.run)) = some (20, .running) := by decide
/-- J10: NONE counts as not Equal. -/
theorem test_jne_taken : stepTo (withReg (at' 20 [0x56, 3]) 3 12) State.pc = some 12 := by decide
/-- J14. -/
theorem test_jne_not_taken : stepTo ((at' 20 [0x56, 9]).setFl .eq) (fun t => (t.pc, t.run)) = some (22, .running) := by decide
/-- S2: PUSH R7 stores the decremented value. -/
theorem test_push_stack_pointer : stepTo (at' 0 [0x45, 7]) (fun t => (t.sp, t.mem.byte 243, t.pc)) = some (243, 243, 2) := by decide
/-- S6: the stack pointer is checked first. -/
theorem test_push_at_zero : stepTo (withReg (at' 0 [0x45, 8]) 7 0) (fun t => (t.run, t.sp)) = some (.faulted .addressOutOfRange 0, 0) := by decide
/-- S8. -/
theorem test_pop_stack_pointer : stepTo (withByte (withReg (at' 0 [0x46, 7]) 7 243) 243 100) (fun t => (t.sp, t.mem.byte 243)) = some (101, 100) := by decide
/-- S12: the register is checked first. -/
theorem test_pop_invalid_register : stepTo (withReg (at' 0 [0x46, 8]) 7 255) State.run = some (.faulted .invalidRegister 0) := by decide
/-- S15. -/
theorem test_call : stepTo (at' 253 [0x50, 1, 0]) (fun t => (t.sp, t.mem.byte 243, t.pc)) = some (243, 255, 0) := by decide
/-- S17. -/
theorem test_call_stack_pointer : stepTo (at' 6 [0x50, 7]) (fun t => (t.sp, t.mem.byte 243, t.pc)) = some (243, 8, 243) := by decide
/-- S19. -/
theorem test_ret : stepTo (withByte (withReg (at' 0 [0x11]) 7 243) 243 8) (fun t => (t.pc, t.sp)) = some (8, 244) := by decide
/-- S20. -/
theorem test_ret_at_255 : stepTo (withReg (at' 0 [0x11]) 7 255) State.run = some (.faulted .addressOutOfRange 0) := by decide

/-! ## Memory, loader and assembler text -/

theorem test_memory_write_zero_removes : Memory.set [(3, 5), (7, 9)] 3 0 = [(7, 9)] := by decide
theorem test_memory_wf_refuses_unsorted : Memory.wf [(7, 9), (3, 5)] = false := by decide
theorem test_memory_wf_refuses_zero : Memory.wf [(3, 0)] = false := by decide
theorem test_memory_wf_refuses_256 : Memory.wf [(256, 1)] = false := by decide
/-- A loader line of P1's first byte, with a comment after a space (log entry 16). -/
theorem test_loader_line : loadLine ['1', '0', '0', '0', '0', '0', '1', '0', ' ', '#', ' ', 'L', 'D', 'I'] = .ok [0x82] := by rfl
theorem test_loader_refuses_short_line : loadLine ['1', '0'] = .error .malformedLine := by rfl
/-- PRN R0 as loader text with a blank line between. -/
theorem test_launchLines :
    (launchLines 244 [['0', '1', '0', '0', '0', '1', '1', '1'], [], ['0', '0', '0', '0', '0', '0', '0', '0']]).map State.mem =
      .ok [(0, 0x47)] := by rfl
/-- The source's spelling, R100. -/
theorem test_asm_spaces : parseAsm ['L', 'D', 'I', ' ', 'R', '0', ' ', '8'] = some (.ldi 0 8) := by decide
theorem test_asm_hexadecimal : parseAsm ['L', 'D', 'I', ' ', 'R', '7', ',', '0', 'x', 'f', 'F'] = some (.ldi 7 255) := by decide
theorem test_asm_binary : parseAsm ['L', 'D', 'I', ' ', 'R', '1', ' ', ',', ' ', '0', 'b', '1', '0'] = some (.ldi 1 2) := by decide
theorem test_asm_refuses_R8 : parseAsm ['P', 'U', 'S', 'H', ' ', 'R', '8'] = none := by decide
theorem test_asm_refuses_256 : parseAsm ['L', 'D', 'I', ' ', 'R', '1', ',', '2', '5', '6'] = none := by decide

/-! ## Witnesses: data that meet the hypotheses of each statement -/

theorem witness_LaunchPlacesTheImage : ([] : List Byte).length ≤ 256 ∧ (List.replicate 256 (1 : Byte)).length ≤ 256 ∧
    256 < (List.replicate 257 (0 : Byte)).length :=
  ⟨Nat.zero_le _, (List.length_replicate ..).le, by rw [List.length_replicate]; decide⟩
theorem witness_DecodeOfEncodeIsTheInstruction : opcodeMap.Injective := opcodeMap_injective
theorem witness_DecodedBytesAreTheEncoding : decode opcodeMap [0x82, 0, 8, 1] = .ok (.ldi 0 8, [1]) := rfl
theorem witness_OpcodeByteAloneSelects : decodeOpcode opcodeMap 0x47 = some .prn ∧ decodeOpcode opcodeMap 0 = none ∧
    decode opcodeMap (0x47 :: [1]) = .ok (.prn 1, []) ∧ decode opcodeMap (0x47 :: [2, 3]) = .ok (.prn 2, [3]) :=
  ⟨rfl, rfl, rfl, rfl⟩
theorem witness_AssemblerTextRoundTrip : (Instr.ldi 7 255).wellFormed = true ∧ (Instr.prn 8).wellFormed = false := by decide

/-- HLT at the last address an instruction can be fetched from. -/
theorem witness_StepRunsTheDecodedInstruction : (at' 253 [1]).run = .running ∧ (at' 253 [1]).pc ≤ 253 ∧
    decode opcodeMap [(at' 253 [1]).mem.byte 253, (at' 253 [1]).mem.byte 254, (at' 253 [1]).mem.byte 255] =
      .ok (.hlt, [0, 0]) := ⟨rfl, by decide, rfl⟩
theorem witness_FetchFaultsInOrder_opcode : (at' 256 []).run = .running ∧ 256 ≤ (at' 256 []).pc := by decide
theorem witness_FetchFaultsInOrder_decode : (at' 255 []).run = .running ∧ (at' 255 []).pc < 256 ∧
    ∀ o, opcodeMap o ≠ (at' 255 []).mem.byte (at' 255 []).pc := ⟨rfl, by decide, fun o => by cases o <;> decide⟩
theorem witness_FetchFaultsInOrder_operands : (at' 254 [1]).run = .running ∧ 254 ≤ (at' 254 [1]).pc ∧
    (at' 254 [1]).pc < 256 ∧ ∃ o, opcodeMap o = (at' 254 [1]).mem.byte (at' 254 [1]).pc :=
  ⟨rfl, by decide, by decide, .hlt, rfl⟩
theorem witness_StepExistsExactlyWhileRunning : State.reset.run = .running := rfl
theorem witness_FaultIsPreciseAndReportsThePc : step (at' 5 []) = .next ((at' 5 []).raised .invalidOpcode) ∧
    ((at' 5 []).raised .invalidOpcode).run = .faulted .invalidOpcode 5 := ⟨rfl, rfl⟩
theorem witness_UnsupportedOperationIsUnreachable : AluOp.cmp ∈ [AluOp.add, .sub, .mul, .cmp] ∧
    step (at' 0 [1]) = .next ((at' 0 [1]).setRun .halted) := ⟨by decide, rfl⟩
theorem witness_RunEndsOnlyByHltOrFault : step (at' 253 [1]) = .next ((at' 253 [1]).setRun .halted) := rfl
/-- The conditions met at their boundaries: RET and POP R6 at 254, POP R7 of the byte 254 at 255, PUSH R7 at 1, CALL R7
at 255, LDI at 0, a JEQ of register 8 not taken. -/
theorem witness_StepIsSafeWhereNoFaultIsListed :
    let s := withReg (at' 0 [0x46, 7]) 7
    (∀ v, (s v).run = .running ∧ fetch opcodeMap (s v) = .ok (.pop 7)) ∧
    NoFaultListed (s 254) .ret ∧ NoFaultListed (s 254) (.pop 6) ∧ NoFaultListed (withByte (s 255) 255 254) (.pop 7) ∧
    NoFaultListed (s 1) (.push 7) ∧ NoFaultListed (s 255) (.call 7) ∧ NoFaultListed (s 0) (.ldi 7 0) ∧
    NoFaultListed (s 0) (.jeq 8) :=
  ⟨fun _ => ⟨rfl, rfl⟩, by unfold NoFaultListed; decide, by unfold NoFaultListed; decide,
    by unfold NoFaultListed; decide, by unfold NoFaultListed; decide, by unfold NoFaultListed; decide,
    by unfold NoFaultListed; decide, by unfold NoFaultListed; decide⟩
/-- ... and broken just past them: RET at 255, POP R7 of the byte 255, PUSH R0 at 0, a JNE of register 8 taken. -/
theorem witness_StepIsSafeWhereNoFaultIsListed_not :
    let s := withReg (at' 0 [0x11]) 7
    ¬ NoFaultListed (s 255) .ret ∧ ¬ NoFaultListed (withByte (s 255) 255 255) (.pop 7) ∧
    ¬ NoFaultListed (s 0) (.push 0) ∧ ¬ NoFaultListed (s 1) (.jne 8) :=
  ⟨by unfold NoFaultListed; decide, by unfold NoFaultListed; decide, by unfold NoFaultListed; decide,
    by unfold NoFaultListed; decide⟩
theorem witness_PlacedWordRunsNext : State.reset.mem.wf = true ∧ decodeTableWord 24 0x080082 = some (.ldi 0 8) := by decide
theorem witness_InvariantHoldsAtEveryLaunch : launch 244 [1] = .ok (at' 0 [1]) := rfl
theorem witness_StepKeepsTheInvariant : (at' 253 [1]).Inv ∧ step (at' 253 [1]) = .next ((at' 253 [1]).setRun .halted) :=
  ⟨⟨by decide, by decide, fun h => (nomatch h), fun _ _ h => (nomatch h)⟩, rfl⟩
theorem witness_TerminalRunIsNeverResumed : (runFor 1 (at' 0 [1])).run ≠ .running := by decide
theorem witness_OutputInfluencesNothing : runFor 1 (at' 0 [1]) = (at' 0 [1]).setRun .halted := rfl

/-- CMP changes the flags; PRN, which neither writes nor reads them, answers a next state. -/
theorem witness_OnlyCmpWritesAndBranchesReadFlags :
    exec (.cmp 0 0) State.reset = .next ((State.reset.setFl .eq).advance 3) ∧
    ((State.reset.setFl .eq).advance 3).fl ≠ State.reset.fl ∧ State.reset.run = .running ∧
    (Instr.prn 7).opcode ≠ .jeq ∧ (Instr.prn 7).opcode ≠ .jne ∧ (Instr.prn 7).opcode ≠ .cmp ∧
    exec (.prn 7) State.reset = .next ((State.reset.emit 244).advance 2) :=
  ⟨rfl, by decide, rfl, by decide, by decide, by decide, rfl⟩
/-- A fetch beside a memory with another byte, a form that stores nothing, one that stores, one whose stack pointer
faults, one that reads no memory, and a RET beside a memory that holds the same byte at the stack pointer. -/
theorem witness_OnlyStackInstructionsTouchMemory :
    (∀ k < 3, (withByte State.reset 3 1).mem.byte (State.reset.pc + k) = State.reset.mem.byte (State.reset.pc + k)) ∧
    (∃ t, exec .ret State.reset = .next t) ∧ Memory.byte [(3, 1)] State.reset.sp.toNat = State.reset.mem.byte State.reset.sp.toNat ∧
    exec (.prn 7) State.reset = .next ((State.reset.emit 244).advance 2) ∧ State.reset.mem.wf = true ∧
    (∃ t, exec (.push 0) State.reset = .next t) ∧ spDec State.reset = .ok (State.reset.setSp 243) ∧
    (∃ t, exec (.call 0) (State.reset.setSp 0) = .next t) ∧ spDec (State.reset.setSp 0) = .error .addressOutOfRange ∧
    (Instr.prn 7).opcode ≠ .pop ∧ (Instr.prn 7).opcode ≠ .ret ∧ (Instr.prn 7).opcode ≠ .push ∧
    (Instr.prn 7).opcode ≠ .call ∧ (Instr.push 0).opcode = .push ∧ (Instr.call 0).opcode = .call :=
  ⟨by decide, ⟨_, rfl⟩, rfl, rfl, rfl, ⟨_, rfl⟩, rfl, ⟨_, rfl⟩, rfl, by decide, by decide, by decide, by decide, rfl, rfl⟩
theorem witness_OnlyPrnWritesTheOutput : exec (.prn 7) State.reset = .next ((State.reset.emit 244).advance 2) := rfl
/-- A destination and the stack pointer. -/
theorem witness_OnlyDestinationsAndStackPointerChange :
    exec (.ldi 6 1) State.reset = .next ((State.reset.setReg 6 1 (by decide)).advance 3) ∧
    ((State.reset.setReg 6 1 (by decide)).advance 3).regs[6] ≠ State.reset.regs[6] ∧
    exec .ret State.reset = .next ((State.reset.setSp 245).setPc 0) ∧
    ((State.reset.setSp 245).setPc 0).regs[7] ≠ State.reset.regs[7] := ⟨rfl, by decide, rfl, by decide⟩
theorem witness_OnlyHltAndFaultsWriteRun : exec .hlt State.reset = .next (State.reset.setRun .halted) := rfl
/-- Each clause: LDI at 253 to 256, PRN, a JEQ not taken, and a running core at 256. -/
theorem witness_AdvanceIsTheLengthAndNeverWraps :
    (next? (exec (.ldi 0 7) (State.reset.setPc 253))).map (fun t => (t.run, t.pc)) = some (.running, 256) ∧
    (next? (exec (.prn 0) State.reset)).map State.run = some .running ∧
    (next? (exec (.jeq 9) State.reset)).map State.run = some .running ∧ State.reset.fl ≠ .eq ∧
    (State.reset.setPc 256).run = .running ∧ (State.reset.setPc 256).pc = 256 := by decide
theorem witness_LdiLoadsTheImmediate : (7 : Byte).toNat < 8 := by decide
theorem witness_PrnEmitsTheRegister : (7 : Byte).toNat < 8 := by decide
theorem witness_AddSubMulWrapAndSetNoFlag : (0 : Byte).toNat < 8 ∧ (7 : Byte).toNat < 8 := by decide
theorem witness_CmpSetsExactlyOneFlag : (7 : Byte).toNat < 8 ∧ (0 : Byte).toNat < 8 := by decide
theorem witness_JmpJumpsToTheRegister : (7 : Byte).toNat < 8 := by decide
/-- Each clause of JEQ and JNE. -/
theorem witness_JeqAndJneBranchOnEqual : (7 : Byte).toNat < 8 ∧ (State.reset.setFl .eq).fl = .eq ∧ State.reset.fl ≠ .eq := by decide
theorem witness_JumpPastTheLastInstructionFaultsNext : (7 : Byte).toNat < 8 ∧ (State.reset.setSp 254).run = .running ∧
    254 ≤ (State.reset.setSp 254).regs[7].toNat := by decide
/-- PUSH R7 with the stack pointer at 1. -/
theorem witness_PushStoresBelowTheStackPointer : (7 : Byte).toNat < 8 ∧ (State.reset.setSp 1).mem.wf = true ∧
    1 ≤ (State.reset.setSp 1).sp.toNat := by decide
/-- POP R6 at 254; POP R7 of the byte 254. -/
theorem witness_PopLoadsFromTheStackPointer : (6 : Byte).toNat < 7 ∧ (State.reset.setSp 254).sp.toNat ≤ 254 ∧
    ((withByte State.reset 244 254).mem.byte (withByte State.reset 244 254).sp.toNat).toNat ≤ 254 := by decide
/-- CALL R7 at 253 with the stack pointer at 1. -/
theorem witness_CallPushesTheReturnAddress : (7 : Byte).toNat < 8 ∧ ((State.reset.setSp 1).setPc 253).mem.wf = true ∧
    ((State.reset.setSp 1).setPc 253).pc ≤ 253 ∧ 1 ≤ ((State.reset.setSp 1).setPc 253).sp.toNat := by decide
theorem witness_RetPopsThePc : (State.reset.setSp 254).sp.toNat ≤ 254 := by decide
theorem witness_InvalidRegisterOperandFaults : 8 ≤ (8 : Byte).toNat ∧ State.reset.sp ≠ 0 ∧ State.reset.fl ≠ .eq ∧
    (State.reset.setFl .eq).fl = .eq ∧ Instr.pop 8 ∈ [Instr.ldi 8 0, .prn 8, .jmp 8, .pop 8] ∧
    Instr.cmp 0 8 ∈ [Instr.add 0 8, .sub 0 8, .mul 0 8, .cmp 0 8] ∧ Instr.call 8 ∈ [Instr.push 8, .call 8] := by decide
theorem witness_StackPointerNeverLeavesMemory : (State.reset.setSp 0).sp = 0 ∧ (State.reset.setSp 255).sp = 255 ∧
    (6 : Byte).toNat < 7 ∧ (withByte State.reset 244 255).mem.byte (withByte State.reset 244 255).sp.toNat = 255 ∧
    Instr.call 8 ∈ [Instr.push 8, .call 8] := by decide
theorem witness_MemoryReadsTheLastWrite : launch 244 [1] = .ok (at' 0 [1]) ∧ (at' 0 [1]).mem.wf = true ∧ 255 < 256 ∧
    256 ≤ 256 ∧ 254 ≠ 255 := ⟨rfl, by decide⟩
theorem witness_RegisterFileReadsTheLastWrite : (7 : Byte).toNat < 8 ∧ 8 ≤ (8 : Byte).toNat ∧ (6 : Byte) ≠ 7 := by decide
/-- Each clause at its boundary: 0, 1, 255, 254. -/
theorem witness_StackPointerUpdatesAreChecked : ((State.reset.setSp 0).sp.toNat : Int) - 1 < 0 ∧
    0 ≤ ((State.reset.setSp 1).sp.toNat : Int) - 1 ∧ 255 < (State.reset.setSp 255).sp.toNat + 1 ∧
    (State.reset.setSp 254).sp.toNat + 1 ≤ 255 := by decide
/-- PUSH R2; POP R3 at 251 (W2's bytes at the highest address the rule allows). -/
theorem witness_PushThenPopRestores : (2 : Byte).toNat < 7 ∧ (3 : Byte).toNat < 7 ∧ opcodeMap.Injective ∧
    (at' 251 [0x45, 2, 0x46, 3]).run = .running ∧ (at' 251 [0x45, 2, 0x46, 3]).mem.wf = true ∧
    (at' 251 [0x45, 2, 0x46, 3]).pc ≤ 251 ∧ 1 ≤ (at' 251 [0x45, 2, 0x46, 3]).sp.toNat ∧
    (at' 251 [0x45, 2, 0x46, 3]).mem.byte 251 = opcodeMap .push ∧ (at' 251 [0x45, 2, 0x46, 3]).mem.byte 252 = 2 ∧
    (at' 251 [0x45, 2, 0x46, 3]).mem.byte 253 = opcodeMap .pop ∧ (at' 251 [0x45, 2, 0x46, 3]).mem.byte 254 = 3 ∧
    (at' 251 [0x45, 2, 0x46, 3]).sp.toNat - 1 ≠ 253 ∧ (at' 251 [0x45, 2, 0x46, 3]).sp.toNat - 1 ≠ 254 :=
  ⟨by decide, by decide, opcodeMap_injective, by decide, by decide, by decide, by decide, by decide, by decide,
    by decide, by decide, by decide, by decide⟩
/-- CALL R1 at 253 to a RET at 40 (W3 at the highest address). -/
theorem witness_CallThenRetRestores :
    let s := withByte (withReg (at' 253 [0x50, 1]) 1 40) 40 0x11
    (1 : Byte).toNat < 7 ∧ opcodeMap.Injective ∧ s.run = .running ∧ s.mem.wf = true ∧ s.pc ≤ 253 ∧ 1 ≤ s.sp.toNat ∧
    s.mem.byte s.pc = opcodeMap .call ∧ s.mem.byte (s.pc + 1) = 1 ∧
    s.mem.byte s.regs[(1 : Byte).toNat].toNat = opcodeMap .ret ∧ s.regs[(1 : Byte).toNat].toNat ≤ 253 ∧
    s.regs[(1 : Byte).toNat].toNat ≠ s.sp.toNat - 1 :=
  ⟨by decide, opcodeMap_injective, by decide, by decide, by decide, by decide, by decide, by decide, by decide,
    by decide, by decide⟩
/-- P7: the pushed byte 0x01 is fetched as HLT. -/
theorem witness_StoredByteIsFetched :
    let s := withReg (State.reset.setSp 11) 0 1
    (Instr.push 0).opcode = .push ∧ s.run = .running ∧ s.mem.wf = true ∧ spDec s = .ok (s.setSp 10) ∧
    (∃ t, exec (.push 0) s = .next t ∧ t.run = .running ∧ (t.setPc 10).mem = t.mem ∧
      (t.setPc 10).pc = (s.setSp 10).sp.toNat ∧ fetch opcodeMap (t.setPc 10) = .ok .hlt) ∧ (0 : Byte).toNat < 8 :=
  ⟨rfl, rfl, rfl, rfl, ⟨_, rfl, rfl, rfl, rfl, rfl⟩, by decide⟩
/-- CALL R0 at 15 pushes the return address 17 = 0x11, fetched as RET. -/
theorem witness_StoredByteIsFetched_call :
    let s := (State.reset.setSp 11).setPc 15
    (Instr.call 0).opcode = .call ∧ s.run = .running ∧ s.mem.wf = true ∧ spDec s = .ok (s.setSp 10) ∧
    (∃ t, exec (.call 0) s = .next t ∧ t.run = .running ∧ (t.setPc 10).mem = t.mem ∧
      (t.setPc 10).pc = (s.setSp 10).sp.toNat ∧ fetch opcodeMap (t.setPc 10) = .ok .ret) :=
  ⟨rfl, rfl, rfl, rfl, ⟨_, rfl, rfl, rfl, rfl, rfl⟩⟩

end Sys2Proof.Tests
end

/-! The register file of 00_scope.md R12 as a store: what a checked read returns after a register write. -/

namespace Sys2Proof.Machine

theorem readReg_setReg_same (s : State) {i : Byte} (v : Byte) (h : i.toNat < 8) :
    readReg (s.setReg i.toNat v h) i = .ok v := by
  simp [readReg_of_lt _ h]

theorem readReg_setReg_of_ne (s : State) {i j : Byte} (v : Byte) (h : i.toNat < 8) (hne : j ≠ i) :
    readReg (s.setReg i.toNat v h) j = readReg s j := by
  have hidx : i.toNat ≠ j.toNat := fun e => hne (BitVec.eq_of_toNat_eq e.symm)
  rcases readReg_cases s j with ⟨hj, hr⟩ | ⟨hj, hr⟩
  · rw [hr, readReg_of_lt _ hj]
    simp [Vector.getElem_set_ne h hj hidx]
  · rw [hr, readReg_of_ge _ hj]

/-- Register 7 is read through the name `sp` (10_state.md R32). -/
theorem readReg_seven (s : State) : readReg s 7 = .ok s.sp := rfl

/-- Settles O46: below 8 a write is `setReg` at that index, so the reads after it are the two rules above, and
from 8 up both operations fail by the check on the whole byte. -/
theorem registerFileReadsTheLastWrite : Obligations.RegisterFileReadsTheLastWrite := by
  intro s i v
  refine ⟨fun h => ⟨readReg_of_lt s h, s.setReg i.toNat v h, writeReg_of_lt s v h, readReg_setReg_same s v h,
    fun j hj => readReg_setReg_of_ne s v h hj, rfl, ?_⟩, fun h => ⟨readReg_of_ge s h, writeReg_of_ge s v h⟩,
    readReg_seven s, ?_⟩
  · rintro rfl
    exact State.setSp_sp s v
  · rw [readReg_seven, State.setSp_sp]

end Sys2Proof.Machine

/-! What an instruction can do to a state, said once: the relation `Effect` and the inversion lemma
`Effect.of_exec`. What instructions leave unchanged (10_state.md) is then a case analysis on `Effect`. -/

namespace Sys2Proof.Machine

/-- `Effect s i t`: executing `i` in `s` may answer `t`, with a fault other than UnsupportedOperation raised on `s`,
or by the completed assignments of `i`. -/
inductive Effect (s : State) : Instr → State → Prop
  | fault {i : Instr} {k : FaultKind} (hk : k ≠ .unsupportedOperation) : Effect s i (s.raised k)
  | hlt : Effect s .hlt (s.setRun .halted)
  | ldi {a b : Byte} (ha : a.toNat < 8) : Effect s (.ldi a b) ((s.setReg a.toNat b ha).advance 3)
  | prn {a : Byte} (ha : a.toNat < 8) : Effect s (.prn a) ((s.emit s.regs[a.toNat]).advance 2)
  | add {a b : Byte} (ha : a.toNat < 8) (hb : b.toNat < 8) :
      Effect s (.add a b) ((s.setReg a.toNat (s.regs[a.toNat] + s.regs[b.toNat]) ha).advance 3)
  | sub {a b : Byte} (ha : a.toNat < 8) (hb : b.toNat < 8) :
      Effect s (.sub a b) ((s.setReg a.toNat (s.regs[a.toNat] - s.regs[b.toNat]) ha).advance 3)
  | mul {a b : Byte} (ha : a.toNat < 8) (hb : b.toNat < 8) :
      Effect s (.mul a b) ((s.setReg a.toNat (s.regs[a.toNat] * s.regs[b.toNat]) ha).advance 3)
  | cmp {a b : Byte} (ha : a.toNat < 8) (hb : b.toNat < 8) :
      Effect s (.cmp a b) ((s.setFl (compareFlags s.regs[a.toNat] s.regs[b.toNat])).advance 3)
  | jmp {a : Byte} (ha : a.toNat < 8) : Effect s (.jmp a) (s.setPc s.regs[a.toNat].toNat)
  | jeqTaken {a : Byte} (hf : s.fl = .eq) (ha : a.toNat < 8) : Effect s (.jeq a) (s.setPc s.regs[a.toNat].toNat)
  | jeqNotTaken {a : Byte} (hf : s.fl ≠ .eq) : Effect s (.jeq a) (s.advance 2)
  | jneTaken {a : Byte} (hf : s.fl ≠ .eq) (ha : a.toNat < 8) : Effect s (.jne a) (s.setPc s.regs[a.toNat].toNat)
  | jneNotTaken {a : Byte} (hf : s.fl = .eq) : Effect s (.jne a) (s.advance 2)
  | push {a : Byte} (hsp : s.sp ≠ 0) (ha : a.toNat < 8) :
      Effect s (.push a) (((s.setSp (s.sp - 1)).setMem
        (s.mem.set (s.sp - 1).toNat (s.setSp (s.sp - 1)).regs[a.toNat])).advance 2)
  | pop {a : Byte} (ha : a.toNat < 8) (hsp : (s.setReg a.toNat (s.mem.byte s.sp.toNat) ha).sp ≠ 255) :
      Effect s (.pop a) (((s.setReg a.toNat (s.mem.byte s.sp.toNat) ha).setSp
        ((s.setReg a.toNat (s.mem.byte s.sp.toNat) ha).sp + 1)).advance 2)
  | call {a : Byte} (hsp : s.sp ≠ 0) (ha : a.toNat < 8) :
      Effect s (.call a) (((s.setSp (s.sp - 1)).setMem (s.mem.set (s.sp - 1).toNat (returnAddress s))).setPc
        (s.setSp (s.sp - 1)).regs[a.toNat].toNat)
  | ret (hsp : s.sp ≠ 255) : Effect s .ret ((s.setSp (s.sp + 1)).setPc (s.mem.byte s.sp.toNat).toNat)

/-- `Effect` covers every answer of `exec`: the branches of each meaning's equation are its constructors. -/
theorem Effect.of_exec {i : Instr} {s t : State} (h : exec i s = .next t) : Effect s i t := by
  cases i <;> simp only [exec, execHlt_eq, execLdi_eq, execPrn_eq, execAdd_eq, execSub_eq, execMul_eq, execCmp_eq,
    execJmp_eq, execJeq_eq, execJne_eq, execPush_eq, execPop_eq, execCall_eq, execRet_eq, ne_eq, ite_not] at h
  case hlt =>
    cases h
    exact .hlt
  case ldi =>
    split_ifs at h with ha <;> cases h
    exacts [.ldi ha, .fault nofun]
  case prn =>
    split_ifs at h with ha <;> cases h
    exacts [.prn ha, .fault nofun]
  case add =>
    split_ifs at h with hab <;> cases h
    exacts [.add hab.1 hab.2, .fault nofun]
  case sub =>
    split_ifs at h with hab <;> cases h
    exacts [.sub hab.1 hab.2, .fault nofun]
  case mul =>
    split_ifs at h with hab <;> cases h
    exacts [.mul hab.1 hab.2, .fault nofun]
  case cmp =>
    split_ifs at h with hab <;> cases h
    exacts [.cmp hab.1 hab.2, .fault nofun]
  case jmp =>
    split_ifs at h with ha <;> cases h
    exacts [.jmp ha, .fault nofun]
  case jeq =>
    split_ifs at h with hf ha <;> cases h
    exacts [.jeqTaken hf ha, .fault nofun, .jeqNotTaken hf]
  case jne =>
    split_ifs at h with hf ha <;> cases h
    exacts [.jneNotTaken hf, .jneTaken hf ha, .fault nofun]
  case push =>
    split_ifs at h with hsp ha <;> cases h
    exacts [.fault nofun, .push hsp ha, .fault nofun]
  case pop =>
    split_ifs at h with ha hsp <;> cases h
    exacts [.fault nofun, .pop ha hsp, .fault nofun]
  case call =>
    split_ifs at h with hsp ha <;> cases h
    exacts [.fault nofun, .call hsp ha, .fault nofun]
  case ret =>
    split_ifs at h with hsp <;> cases h
    exacts [.fault nofun, .ret hsp]

/-! ## The invariant -/

/-- PUSH and CALL store at a byte's value, which is inside the memory; nothing else writes it. -/
theorem Effect.mem_wf {i : Instr} {s t : State} (h : Effect s i t) (hs : s.mem.wf = true) : t.mem.wf = true := by
  cases h
  case push | call => exact Memory.wf_set hs (BitVec.isLt _)
  all_goals exact hs

/-- From an address an instruction can be fetched at, an advance reaches at most 256 and a redirection at most 255
(10_state.md R36, D4). -/
theorem Effect.pc_le {i : Instr} {s t : State} (h : Effect s i t) (hs : s.pc ≤ 253) : t.pc ≤ 256 := by
  cases h
  case fault | hlt => exact hs.trans (by decide)
  case jmp | jeqTaken | jneTaken | call | ret => exact (BitVec.isLt _).le
  case ldi | add | sub | mul | cmp => exact Nat.add_le_add_right hs 3
  all_goals exact (Nat.add_le_add_right hs 2).trans (by decide)

/-- A fetch raises AddressOutOfRange or InvalidOpcode alone. -/
theorem fetch_error_ne_unsupported {m : OpcodeMap} {s : State} {e : FaultKind} (h : fetch m s = .error e) :
    e ≠ .unsupportedOperation := by
  obtain ⟨-, rfl⟩ | ⟨-, -, rfl⟩ | ⟨-, -, -, rfl⟩ := fetch_eq_error.1 h <;> nofun

theorem State.Inv.raised {s : State} (hs : s.Inv) {k : FaultKind} (hk : k ≠ .unsupportedOperation) :
    (s.raised k).Inv where
  memWf := hs.memWf
  pcRange := hs.pcRange
  haltedPc := nofun
  faultedReport := by
    rintro _ _ ⟨⟩
    exact ⟨rfl, hk⟩

/-- An instruction that runs where it can be fetched keeps the invariant. -/
theorem State.Inv.of_exec {i : Instr} {s t : State} (hs : s.Inv) (hr : s.run = .running) (hpc : s.pc ≤ 253)
    (h : exec i s = .next t) : t.Inv := by
  have memWf := (Effect.of_exec h).mem_wf hs.memWf
  have pcRange := (Effect.of_exec h).pc_le hpc
  obtain ⟨k, hk, rfl⟩ | ⟨-, rfl⟩ | hrun := exec_run_cases h
  · exact hs.raised hk
  · exact ⟨memWf, pcRange, fun _ => hpc, nofun⟩
  · rw [hr] at hrun
    exact ⟨memWf, pcRange, by simp [hrun], by simp [hrun]⟩

/-- Settles O21: a fetch fault and an instruction each keep the invariant; a fetched instruction stands at 253 or
below, which bounds the next pc and places a halted core (D12). -/
theorem stepKeepsTheInvariant : Obligations.StepKeepsTheInvariant := by
  intro s t hs h
  obtain ⟨hr, ⟨e, he, rfl⟩ | ⟨i, hi, ht⟩⟩ := stepWith_eq_next.1 h
  · exact hs.raised (fetch_error_ne_unsupported he)
  · exact hs.of_exec hr (fetch_eq_ok.1 hi).1 ht

/-! ## Who writes each field -/

/-- Settles O29: a fault changes nothing but `run`, since it is raised on the state the instruction began in (D9). -/
theorem onlyHltAndFaultsWriteRun : Obligations.OnlyHltAndFaultsWriteRun := by
  intro i s t h
  obtain ⟨k, -, rfl⟩ | ⟨hi, rfl⟩ | hrun := exec_run_cases h
  · exact .inr (.inr ⟨k, rfl⟩)
  · exact .inr (.inl ⟨hi, rfl⟩)
  · exact .inl hrun

/-- Settles O27: among the effects only PRN's emits. -/
theorem onlyPrnWritesTheOutput : Obligations.OnlyPrnWritesTheOutput := by
  intro i s t h
  cases Effect.of_exec h
  case prn a ha => exact .inr ⟨a, ha, rfl, rfl⟩
  all_goals exact .inl rfl

/-- A register that a register write changes is the one written. -/
theorem State.eq_of_setReg_ne {s : State} {i j : Nat} {v : Byte} {hj : j < 8} (hi : i < 8)
    (h : (s.setReg i v hi).regs[j] ≠ s.regs[j]) : i = j := by
  by_contra hne
  exact h (Vector.getElem_set_ne hi hj hne)

/-- Settles O28: POP writes its destination and then the stack pointer; every other effect writes at most one
register. -/
theorem onlyDestinationsAndStackPointerChange : Obligations.OnlyDestinationsAndStackPointerChange := by
  intro i s t h j hj hne
  cases Effect.of_exec h
  case ldi a b ha => exact .inl ⟨a, b, State.eq_of_setReg_ne ha hne, .inl rfl⟩
  case add a b ha hb => exact .inl ⟨a, b, State.eq_of_setReg_ne ha hne, .inr (.inl rfl)⟩
  case sub a b ha hb => exact .inl ⟨a, b, State.eq_of_setReg_ne ha hne, .inr (.inr (.inl rfl))⟩
  case mul a b ha hb => exact .inl ⟨a, b, State.eq_of_setReg_ne ha hne, .inr (.inr (.inr rfl))⟩
  case push => exact .inr (.inr ⟨(State.eq_of_setReg_ne (by decide) hne).symm, .inl rfl⟩)
  case call => exact .inr (.inr ⟨(State.eq_of_setReg_ne (by decide) hne).symm, .inr (.inr (.inl rfl))⟩)
  case ret => exact .inr (.inr ⟨(State.eq_of_setReg_ne (by decide) hne).symm, .inr (.inr (.inr rfl))⟩)
  case pop a ha hsp =>
    by_cases hd : (s.setReg a.toNat (s.mem.byte s.sp.toNat) ha).regs[j] = s.regs[j]
    · exact .inr (.inr ⟨(State.eq_of_setReg_ne (by decide) fun e => hne (e.trans hd)).symm, .inr (.inl rfl)⟩)
    · exact .inr (.inl ⟨a, State.eq_of_setReg_ne ha hd, rfl⟩)
  all_goals exact absurd rfl hne

/-! ## Changes that an instruction does not see -/

/-- `f` keeps the registers, the pc and memory, all that an instruction other than JEQ and JNE reads, and commutes with
every update but that of the flags. -/
structure Unseen (f : State → State) : Prop where
  regs (s : State) : (f s).regs = s.regs
  pc (s : State) : (f s).pc = s.pc
  mem (s : State) : (f s).mem = s.mem
  setReg (s : State) (i : Nat) (v : Byte) (h : i < 8) : f (s.setReg i v h) = (f s).setReg i v h
  setPc (s : State) (n : Nat) : f (s.setPc n) = (f s).setPc n
  setMem (s : State) (m : Memory) : f (s.setMem m) = (f s).setMem m
  emit (s : State) (v : Byte) : f (s.emit v) = (f s).emit v
  setRun (s : State) (r : RunState) : f (s.setRun r) = (f s).setRun r

/-- `f` keeps the flags too and commutes with their update. -/
structure FlagsUnseen (f : State → State) : Prop where
  fl (s : State) : (f s).fl = s.fl
  setFl (s : State) (g : Flags) : f (s.setFl g) = (f s).setFl g


namespace Unseen

variable {f : State → State}

theorem advance (hf : Unseen f) (s : State) (n : Nat) : f (s.advance n) = (f s).advance n := by
  simp only [State.advance, hf.setPc, hf.pc]

theorem setSp (hf : Unseen f) (s : State) (v : Byte) : f (s.setSp v) = (f s).setSp v := hf.setReg s 7 v (by decide)

theorem raised (hf : Unseen f) (s : State) (k : FaultKind) : f (s.raised k) = (f s).raised k := by
  simp only [State.raised, hf.setRun, hf.pc]

theorem sp (hf : Unseen f) (s : State) : (f s).sp = s.sp := by simp only [State.sp, hf.regs]

theorem returnAddress_eq (hf : Unseen f) (s : State) : returnAddress (f s) = returnAddress s := by
  simp only [returnAddress, hf.pc]

/-- An instruction does the same beside a change it does not see: with `f` pulled out of every update, the equations
of its meaning at `f s` and at `s` branch alike and answer `f t` and `t`. -/
theorem exec_next (hf : Unseen f) {i : Instr} (hfl : i.opcode ∈ [.jeq, .jne, .cmp] → FlagsUnseen f) {s t : State}
    (h : exec i s = .next t) : exec i (f s) = .next (f t) := by
  cases i
  case hlt =>
    cases h
    rw [hf.setRun]
    rfl
  case jeq | jne =>
    have hfl := (hfl (by simp [Instr.opcode])).fl
    simp only [exec, execJeq_eq, execJne_eq, hf.regs, hfl, ← hf.setPc, ← hf.advance, ← hf.raised] at h ⊢
    split_ifs at h ⊢ <;> cases h <;> rfl
  case cmp =>
    have hsetFl := (hfl (by simp [Instr.opcode])).setFl
    simp only [exec, execCmp_eq, hf.regs, ← hsetFl, ← hf.advance, ← hf.raised] at h ⊢
    split_ifs at h ⊢ <;> cases h <;> rfl
  all_goals
    simp only [exec, execLdi_eq, execPrn_eq, execAdd_eq, execSub_eq, execMul_eq, execJmp_eq, execPush_eq,
      execPop_eq, execCall_eq, execRet_eq, hf.regs, hf.mem, hf.sp, hf.returnAddress_eq, ← hf.setReg, ← hf.setSp,
      ← hf.setMem, ← hf.setPc, ← hf.emit, ← hf.advance, ← hf.raised] at h ⊢
    split_ifs at h ⊢ <;> cases h <;> rfl

end Unseen

/-! ## The flags -/

theorem compareFlags_ne_none (u v : Byte) : compareFlags u v ≠ .none := by
  unfold compareFlags
  split_ifs <;> nofun

/-- Flags that an instruction changes are a CMP's, and not NONE. -/
theorem Effect.of_fl_ne {i : Instr} {s t : State} (h : Effect s i t) (hne : t.fl ≠ s.fl) :
    i.opcode = .cmp ∧ t.fl ≠ .none := by
  cases h
  case cmp => exact ⟨rfl, compareFlags_ne_none _ _⟩
  all_goals exact absurd rfl hne

theorem unseen_setFl (g : Flags) : Unseen (·.setFl g) := by
  constructor <;> intros <;> rfl

/-- CMP overwrites the flags it finds, unless it faults and leaves them. -/
theorem exec_cmp_setFl {a b : Byte} {s t : State} (f : Flags) (hr : s.run = .running)
    (h : exec (.cmp a b) s = .next t) :
    exec (.cmp a b) (s.setFl f) = .next (if t.run = .running then t else t.setFl f) := by
  simp only [exec, execCmp_eq] at h ⊢
  split_ifs at h with hab <;> cases h
  · rw [dif_pos hab, if_pos (by exact hr)]
    rfl
  · rw [dif_neg hab, if_neg nofun]
    rfl

/-- Settles O25: CMP's effect alone writes the flags, and a change of them is unseen by every instruction but JEQ, JNE
and CMP. -/
theorem onlyCmpWritesAndBranchesReadFlags : Obligations.OnlyCmpWritesAndBranchesReadFlags := by
  refine ⟨fun f => by cases f <;> decide, fun _ => rfl, fun i s t h hne => (Effect.of_exec h).of_fl_ne hne, ?_,
    fun a b s t f hr h => exec_cmp_setFl f hr h⟩
  intro i s t f hjeq hjne hcmp h
  exact (unseen_setFl f).exec_next (by simp [hjeq, hjne, hcmp]) h

/-! ## Runs and the output -/

/-- Every instruction answers a next state. -/
theorem exec_answers (i : Instr) (s : State) : ∃ t, exec i s = .next t := by
  cases i
  case hlt => exact ⟨_, rfl⟩
  all_goals
    simp only [exec, execLdi_eq, execPrn_eq, execAdd_eq, execSub_eq, execMul_eq, execCmp_eq, execJmp_eq, execJeq_eq,
      execJne_eq, execPush_eq, execPop_eq, execCall_eq, execRet_eq]
    split_ifs <;> exact ⟨_, rfl⟩

/-- In `Running` there is a step. -/
theorem step_answers {s : State} (hr : s.run = .running) : ∃ t, step s = .next t := by
  cases hf : fetch opcodeMap s with
  | ok i => simpa only [step, stepWith_of_fetch hr hf] using exec_answers i s
  | error e => exact ⟨_, stepWith_of_fetch_error hr hf⟩

theorem runFor_succ_of_step {s t : State} (h : step s = .next t) (n : Nat) : runFor (n + 1) s = runFor n t := by
  simp only [runFor, h]

/-- A terminal state is where every run from it ends. -/
theorem runFor_of_terminal {s : State} (hr : s.run ≠ .running) (n : Nat) : runFor n s = s := by
  cases n with
  | zero => rfl
  | succ n =>
    cases h : step s with
    | next t => exact absurd (stepWith_eq_next.1 h).1 hr
    | fault _ => simp only [runFor, h]
    | refused _ => simp only [runFor, h]

/-- What a step appends to the output: nothing, or PRN's one byte. -/
theorem step_out {s t : State} (h : step s = .next t) : ∃ l, t.out = s.out ++ l ∧ l.length ≤ 1 := by
  obtain ⟨-, ⟨e, -, rfl⟩ | ⟨i, -, hi⟩⟩ := stepWith_eq_next.1 h
  · exact ⟨[], by simp⟩
  · obtain hout | ⟨a, ha, -, hout⟩ := onlyPrnWritesTheOutput i s t hi
    · exact ⟨[], by simp [hout]⟩
    · exact ⟨[s.regs[a.toNat]], hout, le_rfl⟩

/-- Settles O23, by induction on the number of steps. -/
theorem runOnlyAppendsToTheOutput : Obligations.RunOnlyAppendsToTheOutput := by
  intro n
  induction n with
  | zero => exact fun s => ⟨[], by simp [runFor]⟩
  | succ n ih =>
    intro s
    by_cases hr : s.run = .running
    · obtain ⟨t, ht⟩ := step_answers hr
      obtain ⟨l, hl, hlen⟩ := step_out ht
      obtain ⟨l', hl', hlen'⟩ := ih t
      refine ⟨l ++ l', by rw [runFor_succ_of_step ht, hl', hl, List.append_assoc], ?_⟩
      rw [List.length_append]
      omega
    · exact ⟨[], by simp [runFor_of_terminal hr]⟩

/-- The same state with other bytes emitted before. -/
def State.prependOut (o : List Byte) (s : State) : State := { s with out := o ++ s.out }

theorem unseen_prependOut (o : List Byte) : Unseen (State.prependOut o) := by
  constructor
  case emit => exact fun s v => congrArg (fun l => { s with out := l }) (List.append_assoc o s.out [v]).symm
  all_goals intros; rfl

theorem flagsUnseen_prependOut (o : List Byte) : FlagsUnseen (State.prependOut o) :=
  ⟨fun _ => rfl, fun _ _ => rfl⟩

/-- A fetch depends on the pc and memory alone. -/
theorem fetch_congr {m : OpcodeMap} {s u : State} (hpc : u.pc = s.pc) (hmem : u.mem = s.mem) :
    fetch m u = fetch m s := by
  simp only [fetch, memRead, hpc, hmem]

theorem step_prependOut (o : List Byte) {s t : State} (h : step s = .next t) :
    step (s.prependOut o) = .next (t.prependOut o) := by
  have hfetch : fetch opcodeMap (s.prependOut o) = fetch opcodeMap s := fetch_congr rfl rfl
  obtain ⟨hr, ⟨e, he, rfl⟩ | ⟨i, hi, ht⟩⟩ := stepWith_eq_next.1 h
  · exact stepWith_of_fetch_error hr (hfetch.trans he)
  · exact (stepWith_of_fetch (s := s.prependOut o) hr (hfetch.trans hi)).trans
      ((unseen_prependOut o).exec_next (fun _ => flagsUnseen_prependOut o) ht)

/-- Settles O24, by induction on the number of steps: each step carries the earlier output along. -/
theorem outputInfluencesNothing : Obligations.OutputInfluencesNothing := by
  rintro n s _ o rfl
  change runFor n (s.prependOut o) = (runFor n s).prependOut o
  induction n generalizing s with
  | zero => rfl
  | succ n ih =>
    by_cases hr : s.run = .running
    · obtain ⟨t, ht⟩ := step_answers hr
      rw [runFor_succ_of_step ht, runFor_succ_of_step (step_prependOut o ht), ih]
    · rw [runFor_of_terminal hr, runFor_of_terminal (s := s.prependOut o) hr]

end Sys2Proof.Machine

/-! Memory (20_memory.md): what a read returns after a write, which instructions write memory and at which byte,
which bytes a fetch and an instruction depend on, and that a stored byte is what a later fetch decodes. -/

namespace Sys2Proof.Machine

/-! ## Reads, writes and the image -/

theorem memRead_of_lt (s : State) {a : Nat} (h : a < 256) : memRead s a = .ok (s.mem.byte a) := if_pos h

theorem memRead_of_ge (s : State) {a : Nat} (h : 256 ≤ a) : memRead s a = .error .addressOutOfRange :=
  if_neg (Nat.not_lt.2 h)

theorem memWrite_of_lt (s : State) {a : Nat} (v : Byte) (h : a < 256) :
    memWrite s a v = .ok (s.setMem (s.mem.set a v)) := if_pos h

theorem memWrite_of_ge (s : State) {a : Nat} (v : Byte) (h : 256 ≤ a) :
    memWrite s a v = .error .addressOutOfRange := if_neg (Nat.not_lt.2 h)

theorem Memory.byte_set_same {m : Memory} (hm : m.wf = true) (a : Nat) (v : Byte) : (m.set a v).byte a = v := by
  rw [Memory.byte_set hm, if_pos rfl]

theorem Memory.byte_set_of_ne {m : Memory} (hm : m.wf = true) {a b : Nat} (v : Byte) (h : b ≠ a) :
    (m.set a v).byte b = m.byte b := by
  rw [Memory.byte_set hm, if_neg h]

theorem memRead_set_of_ne {s : State} (hs : s.mem.wf = true) {a b : Nat} (v : Byte) (h : b ≠ a) :
    memRead (s.setMem (s.mem.set a v)) b = memRead s b := by
  rw [memRead_eq, memRead_eq, State.setMem_mem, Memory.byte_set_of_ne hs v h]

/-- After a launch a byte is the image's, or 0 beyond the image's end. -/
theorem launch_byte {sp : Byte} {image : List Byte} {s : State} (h : launch sp image = .ok s) (a : Nat) :
    s.mem.byte a = image.getD a 0 := by
  unfold launch at h
  split_ifs at h with hlen
  cases h
  rw [State.setMem_mem, Memory.byte_setBytes rfl 0 a image (by simpa using hlen), if_pos (Nat.zero_le a)]
  rfl

/-- Settles O45: after a launch by the bytes of the image; below 256 a write is `Memory.set` at that address, and from
256 up both operations fail by the check. -/
theorem memoryReadsTheLastWrite : Obligations.MemoryReadsTheLastWrite := by
  refine ⟨fun sp image s h a ha => by rw [memRead_of_lt s ha, launch_byte h], fun s a v hs => ⟨fun ha => ?_,
    fun ha => ⟨memRead_of_ge s ha, memWrite_of_ge s v ha⟩⟩⟩
  have hread : memRead (s.setMem (s.mem.set a v)) a = .ok v := by
    rw [memRead_of_lt _ ha, State.setMem_mem, Memory.byte_set_same hs]
  exact ⟨⟨_, memRead_of_lt s ha⟩, _, memWrite_of_lt s v ha, hread, fun b hb => memRead_set_of_ne hs v hb, rfl,
    Memory.wf_set hs ha⟩

/-! ## Which bytes are read and written -/

/-- `SPDec()` succeeds exactly above 0. -/
theorem spDec_eq_ok {s s1 : State} : spDec s = .ok s1 ↔ s.sp ≠ 0 ∧ s1 = s.setSp (s.sp - 1) := by
  obtain ⟨h0, hd⟩ | ⟨h0, hd⟩ := spDec_cases s
  · simp [hd, h0]
  · rw [hd, Except.ok.injEq, eq_comm]
    exact (and_iff_right h0).symm

/-- What any instruction does to memory: nothing, or it is a PUSH or CALL that stores one byte just below the stack
pointer. -/
theorem Effect.mem_cases {i : Instr} {s t : State} (h : Effect s i t) :
    t.mem = s.mem ∨
      (i.opcode = .push ∨ i.opcode = .call) ∧ s.sp ≠ 0 ∧ ∃ v, t.mem = s.mem.set (s.sp - 1).toNat v := by
  cases h
  case push hsp ha => exact .inr ⟨.inl rfl, hsp, _, rfl⟩
  case call hsp ha => exact .inr ⟨.inr rfl, hsp, _, rfl⟩
  all_goals exact .inl rfl

/-- A fetch depends on the pc and the three bytes from it up. -/
theorem fetch_congr_bytes {m : OpcodeMap} {s u : State} (hpc : u.pc = s.pc)
    (hmem : ∀ k < 3, u.mem.byte (s.pc + k) = s.mem.byte (s.pc + k)) : fetch m u = fetch m s := by
  have h0 : u.mem.byte s.pc = s.mem.byte s.pc := hmem 0 (by decide)
  simp only [fetch, memRead, hpc, h0, hmem 1 (by decide), hmem 2 (by decide)]

/-- With another memory an instruction does the same to the rest of the state, where POP and RET find the same byte at
the stack pointer: the equations of its meaning branch alike. -/
theorem exec_setMem {i : Instr} {s t : State} {m : Memory}
    (hread : i.opcode = .pop ∨ i.opcode = .ret → m.byte s.sp.toNat = s.mem.byte s.sp.toNat)
    (h : exec i s = .next t) : ∃ t', exec i (s.setMem m) = .next t' ∧ t'.setMem t.mem = t := by
  obtain ⟨t', ht'⟩ := exec_answers i (s.setMem m)
  refine ⟨t', ht', ?_⟩
  cases i
  case hlt =>
    cases h
    cases ht'
    rfl
  case pop | ret =>
    have hbyte := hread (by simp [Instr.opcode])
    simp only [exec, execPop_eq, execRet_eq, State.setReg_sp, State.setMem_mem, State.setMem_sp, hbyte] at h ht'
    split_ifs at h ht' <;> cases h <;> cases ht' <;> rfl
  case jeq | jne =>
    simp only [exec, execJeq_eq, execJne_eq] at h ht'
    rw [State.setMem_fl] at ht'
    split_ifs at h ht' <;> cases h <;> cases ht' <;> rfl
  case push | call =>
    simp only [exec, execPush_eq, execCall_eq] at h ht'
    rw [State.setMem_sp] at ht'
    split_ifs at h ht' <;> cases h <;> cases ht' <;> rfl
  all_goals
    simp only [exec, execLdi_eq, execPrn_eq, execAdd_eq, execSub_eq, execMul_eq, execCmp_eq, execJmp_eq] at h ht'
    split_ifs at h ht' <;> cases h <;> cases ht' <;> rfl

/-- Settles O26: what is written by `Effect.mem_cases`, at the address `SPDec()` gives; what is read by
`fetch_congr_bytes` and `exec_setMem`. -/
theorem onlyStackInstructionsTouchMemory : Obligations.OnlyStackInstructionsTouchMemory := by
  refine ⟨fun m s u => fetch_congr_bytes, ?_, ?_, ?_, ?_⟩
  · intro i s t hs h hpush hcall x
    obtain hmem | ⟨hpush' | hcall', -⟩ := (Effect.of_exec h).mem_cases
    · rw [hmem]
    · exact absurd hpush' hpush
    · exact absurd hcall' hcall
  · intro i s t s1 hs h _ hd x hx
    obtain ⟨-, rfl⟩ := spDec_eq_ok.1 hd
    rw [State.setSp_sp] at hx
    obtain hmem | ⟨-, -, v, hmem⟩ := (Effect.of_exec h).mem_cases
    · rw [hmem]
    · rw [hmem, Memory.byte_set_of_ne hs v hx]
  · intro i s t e h _ hd x
    obtain hmem | ⟨-, hsp, -⟩ := (Effect.of_exec h).mem_cases
    · rw [hmem]
    · rw [spDec_of_ne hsp] at hd
      cases hd
  · intro i s t m hm
    exact exec_setMem fun hi => hm.resolve_left fun ⟨hpop, hret⟩ => hi.elim hpop hret

/-! ## Stored bytes and later fetches -/

/-- A fetched instruction's opcode byte is the byte at the pc. -/
theorem fetch_opcode {m : OpcodeMap} {s : State} {i : Instr} (h : fetch m s = .ok i) :
    m i.opcode = s.mem.byte s.pc := by
  obtain ⟨-, o, ho, rfl⟩ := fetch_eq_ok.1 h
  rw [Opcode.opcode_build, decodeOpcode_some ho]

/-- The byte a PUSH that does not fault leaves below the stack pointer. -/
theorem exec_push_byte {a : Byte} (ha : a.toNat < 8) {s t : State} (hs : s.mem.wf = true)
    (h : exec (.push a) s = .next t) (ht : ∀ k p, t.run ≠ .faulted k p) :
    t.mem.byte (s.sp - 1).toNat = (s.setSp (s.sp - 1)).regs[a.toNat] := by
  cases Effect.of_exec h
  case fault => exact absurd rfl (ht _ _)
  case push => exact Memory.byte_set_same hs _ _

/-- The byte a CALL that does not fault leaves below the stack pointer. -/
theorem exec_call_byte {a : Byte} {s t : State} (hs : s.mem.wf = true) (h : exec (.call a) s = .next t)
    (ht : ∀ k p, t.run ≠ .faulted k p) : t.mem.byte (s.sp - 1).toNat = returnAddress s := by
  cases Effect.of_exec h
  case fault => exact absurd rfl (ht _ _)
  case call => exact Memory.byte_set_same hs _ _

/-- Settles O50: the fetch decodes the byte at its pc, which is the byte just stored (default map, D1). -/
theorem storedByteIsFetched : Obligations.StoredByteIsFetched := by
  intro i s s1 t u j _ _ hs hd h hrun hmem hpc hfetch
  obtain ⟨-, rfl⟩ := spDec_eq_ok.1 hd
  have hfault : ∀ k p, t.run ≠ .faulted k p := by simp [hrun]
  have hop : opcodeMap j.opcode = t.mem.byte (s.sp - 1).toNat := by
    rw [fetch_opcode hfetch, hmem, hpc, State.setSp_sp]
  constructor
  · rintro a ha rfl
    rw [hop, exec_push_byte ha hs h hfault]
  · rintro a rfl
    rw [hop, exec_call_byte hs h hfault]

end Sys2Proof.Machine

/-! Encoding (30_encoding.md): `decode` succeeds exactly on the encodings whose opcode byte selects their row, which is
the round trip in both directions. -/

namespace Sys2Proof

/-- An instruction built from two operand bytes stores as many of them as its format has (R90, R91). -/
theorem Opcode.operands_build (o : Opcode) (a b : Byte) : (o.build a b).operands = [a, b].take o.operandCount := by
  cases o <;> rfl

theorem encode_length (m : OpcodeMap) (i : Instr) : (encode m i).length = i.length := by cases i <;> rfl

/-- The operand bytes are read back where the opcode byte selects the instruction's row. -/
theorem decode_encode {m : OpcodeMap} {i : Instr} (h : decodeOpcode m (m i.opcode) = some i.opcode)
    (rest : List Byte) : decode m (encode m i ++ rest) = .ok (i, rest) := by
  simp only [encode, List.cons_append, decode, h]
  cases i <;> rfl

/-- `decode` succeeds exactly on an encoding whose opcode byte selects the instruction's row. -/
theorem decode_eq_ok {m : OpcodeMap} {bytes : List Byte} {i : Instr} {rest : List Byte} :
    decode m bytes = .ok (i, rest) ↔
      bytes = encode m i ++ rest ∧ decodeOpcode m (m i.opcode) = some i.opcode := by
  refine ⟨fun h => ?_, fun ⟨hbytes, hop⟩ => hbytes ▸ decode_encode hop rest⟩
  unfold decode at h
  split at h
  · cases h
  next op tail =>
    split at h
    · cases h
    next o ho =>
      have hm : m o = op := decodeOpcode_some ho
      split at h <;> cases h
      all_goals
        next hcount => simp [encode, Opcode.operands_build, hcount, hm, ho]

/-- Settles O3: under an injective map every row's opcode byte selects that row. -/
theorem decodeOfEncodeIsTheInstruction : Obligations.DecodeOfEncodeIsTheInstruction :=
  fun _ hm i rest => decode_encode (decodeOpcode_self hm i.opcode) rest

/-- Settles O4, by `decode_eq_ok`. -/
theorem decodedBytesAreTheEncoding : Obligations.DecodedBytesAreTheEncoding := by
  intro m bytes i rest h
  obtain ⟨hbytes, -⟩ := decode_eq_ok.1 h
  exact ⟨hbytes, by rw [hbytes, List.length_append, encode_length]⟩

/-- A sequence that decodes begins with a byte that selects the opcode of the decoded instruction. -/
theorem decodeOpcode_of_decode_cons {m : OpcodeMap} {op : Byte} {bytes : List Byte} {i : Instr} {rest : List Byte}
    (h : decode m (op :: bytes) = .ok (i, rest)) : decodeOpcode m op = some i.opcode := by
  obtain ⟨hbytes, hop⟩ := decode_eq_ok.1 h
  rwa [(List.cons.inj hbytes).1]

/-- Settles O5: both sequences decode to the opcode that their common first byte selects. -/
theorem opcodeByteAloneSelects : Obligations.OpcodeByteAloneSelects := by
  refine fun m op => ⟨fun o => decodeOpcode_some, decodeOpcode_none, fun bs cs i j r r' hi hj => ?_⟩
  have hopi := decodeOpcode_of_decode_cons hi
  have hopj := decodeOpcode_of_decode_cons hj
  exact ⟨Option.some.inj (hopi.symm.trans hopj), hopi⟩

end Sys2Proof

/-! Loader text (30_encoding.md R101): the value of a binary literal, a line's content beside its comment, and the
bytes of a list of lines. -/

namespace Sys2Proof.Machine

/-! ## Binary literals -/

/-- The lowest `n` bits of a byte as binary digits, most significant first. -/
def lowDigits (v : Byte) (n : Nat) : List Char :=
  (List.range n).reverse.map fun i => if v.getLsbD i then '1' else '0'

theorem byteLine_eq_lowDigits (v : Byte) : byteLine v = lowDigits v 8 := rfl

theorem lowDigits_succ (v : Byte) (n : Nat) :
    lowDigits v (n + 1) = (if v.getLsbD n then '1' else '0') :: lowDigits v n := by
  simp [lowDigits, List.range_succ]

theorem eq_zero_or_one_of_mem_lowDigits {v : Byte} {n : Nat} {c : Char} (h : c ∈ lowDigits v n) :
    c = '0' ∨ c = '1' := by
  obtain ⟨i, -, rfl⟩ := List.mem_map.1 h
  split_ifs
  · exact .inr rfl
  · exact .inl rfl

/-- A literal's value: the digits before it shifted up, plus the bits it spells. -/
theorem parseBits_lowDigits (v : Byte) (n acc : Nat) :
    parseBits acc (lowDigits v n) = some (2 ^ n * acc + v.toNat % 2 ^ n) := by
  induction n generalizing acc with
  | zero => simp [lowDigits, parseBits, Nat.mod_one]
  | succ n ih =>
    rw [lowDigits_succ, Nat.mod_pow_succ, ← Nat.toNat_testBit, BitVec.testBit_toNat, Nat.pow_succ]
    cases v.getLsbD n <;> simp [parseBits, ih] <;> ring

theorem parseBits_byteLine (v : Byte) : parseBits 0 (byteLine v) = some v.toNat := by
  rw [byteLine_eq_lowDigits, parseBits_lowDigits, Nat.mul_zero, Nat.zero_add, Nat.mod_eq_of_lt v.isLt]

/-! ## Lines -/

/-- A line's content is the text before the `#`, without the blanks after it, where that text has no `#` and no blank. -/
theorem lineContent_append {text tail : List Char} (hne : text ≠ [])
    (htext : ∀ c ∈ text, c ≠ '#' ∧ isLineBlank c = false)
    (htail : ∀ c ∈ tail.takeWhile (· != '#'), isLineBlank c = true) : lineContent (text ++ tail) = text := by
  have hcomment : (text ++ tail).takeWhile (· != '#') = text ++ tail.takeWhile (· != '#') :=
    List.takeWhile_append_of_pos fun c hc => bne_iff_ne.2 (htext c hc).1
  have hfront : ∀ l, (text ++ l).dropWhile isLineBlank = text ++ l := by
    obtain ⟨c, cs, rfl⟩ := List.exists_cons_of_ne_nil hne
    intro l
    rw [List.cons_append, List.dropWhile_cons_of_neg (by simp [htext c])]
  have hback : text.reverse.dropWhile isLineBlank = text.reverse :=
    List.dropWhile_eq_self_iff.2 fun hl =>
      ne_true_of_eq_false (htext _ (List.mem_reverse.1 (List.getElem_mem hl))).2
  rw [lineContent, hcomment, hfront, List.reverse_append,
    List.dropWhile_append_of_pos fun c hc => htail c (List.mem_reverse.1 hc), hback, List.reverse_reverse]

/-- The line of a byte loads as that byte, whatever comment and blanks follow the literal. -/
theorem loadLine_byteLine_append (v : Byte) {tail : List Char}
    (htail : ∀ c ∈ tail.takeWhile (· != '#'), isLineBlank c = true) :
    loadLine (byteLine v ++ tail) = .ok [v] := by
  have hcontent : lineContent (byteLine v ++ tail) = byteLine v := by
    refine lineContent_append nofun (fun c hc => ?_) htail
    obtain rfl | rfl := eq_zero_or_one_of_mem_lowDigits (byteLine_eq_lowDigits v ▸ hc) <;> decide
  have hne : byteLine v ≠ [] := nofun
  have hlength : (byteLine v).length = 8 := rfl
  simp only [loadLine, hcontent, if_neg hne, if_pos hlength, parseBits_byteLine, BitVec.ofNat_toNat,
    BitVec.setWidth_eq]

/-! ## Lists of lines -/

/-- Lines of one byte each load as those bytes in order. -/
theorem loadLines_map {α : Type} {line : α → List Char} {byte : α → Byte}
    (h : ∀ x, loadLine (line x) = .ok [byte x]) (xs : List α) : loadLines (xs.map line) = .ok (xs.map byte) := by
  induction xs with
  | nil => rfl
  | cons x xs ih => simp [loadLines, h, ih]

theorem loadLines_nil_cons (lines : List (List Char)) : loadLines ([] :: lines) = loadLines lines := by
  have hblank : loadLine [] = .ok [] := rfl
  cases h : loadLines lines <;> simp [loadLines, hblank, h]

theorem loadLines_append_nil_cons (xs ys : List (List Char)) :
    loadLines (xs ++ [] :: ys) = loadLines (xs ++ ys) := by
  induction xs with
  | nil => exact loadLines_nil_cons ys
  | cons x xs ih => simp only [List.cons_append, loadLines, ih]

/-- Settles O9: a byte's literal loads as the byte with each of the three line ends, and a blank line as nothing. -/
theorem loaderTextGivesTheBytes : Obligations.LoaderTextGivesTheBytes := by
  refine ⟨fun bytes => ?_, loadLines_map fun l => loadLine_byteLine_append l.1 nofun, loadLines_append_nil_cons,
    fun v c => loadLine_byteLine_append v (by simp [isLineBlank]), fun _ => rfl, rfl⟩
  have hline : ∀ v, loadLine (byteLine v) = .ok [v] := fun v => by
    simpa using loadLine_byteLine_append v (tail := []) nofun
  simpa using loadLines_map hline bytes

end Sys2Proof.Machine

/-! The dispatcher (40_dispatch.md): when there is a step and what it executes, how a step ends the run, the advance of
the pc, and runs of several steps. -/

namespace Sys2Proof.Machine

/-! ## The step and its end -/

/-- Settles O12: a next state comes from `Running` alone, and there every fetch and every instruction answers one. -/
theorem stepExistsExactlyWhileRunning : Obligations.StepExistsExactlyWhileRunning :=
  fun _ => ⟨fun ⟨_, h⟩ => (stepWith_eq_next.1 h).1, step_answers⟩

/-- A fetch in range answers what the three bytes at the pc decode to (R122). -/
theorem fetch_of_decode {m : OpcodeMap} {s : State} {i : Instr} {rest : List Byte} (hpc : s.pc ≤ 253)
    (h : decode m [s.mem.byte s.pc, s.mem.byte (s.pc + 1), s.mem.byte (s.pc + 2)] = .ok (i, rest)) :
    fetch m s = .ok i := by
  have hop := decodeOpcode_of_decode_cons h
  obtain ⟨_, hbuild⟩ := decode_fetched (a := s.mem.byte (s.pc + 1)) (b := s.mem.byte (s.pc + 2)) hop
  obtain ⟨hi, -⟩ := Prod.mk.inj (Except.ok.inj (h.symm.trans hbuild))
  exact fetch_eq_ok.2 ⟨hpc, i.opcode, hop, hi⟩

/-- Settles O10: the step runs what it fetches, which is what the bytes decode to. -/
theorem stepRunsTheDecodedInstruction : Obligations.StepRunsTheDecodedInstruction :=
  fun _ _ _ hr hpc h => stepWith_of_fetch hr (fetch_of_decode hpc h)

/-- Settles O16: a fetched instruction that does not fault keeps `run` unless it is HLT, whose byte is then the one
fetched (default map, D1). -/
theorem runEndsOnlyByHltOrFault : Obligations.RunEndsOnlyByHltOrFault := by
  intro s t h
  obtain ⟨hr, ⟨e, -, rfl⟩ | ⟨i, hi, ht⟩⟩ := stepWith_eq_next.1 h
  · exact .inr (.inr ⟨e, rfl⟩)
  · obtain ⟨k, -, rfl⟩ | ⟨rfl, rfl⟩ | hrun := exec_run_cases ht
    · exact .inr (.inr ⟨k, rfl⟩)
    · exact .inr (.inl ⟨rfl, (fetch_opcode hi).symm, (fetch_eq_ok.1 hi).1⟩)
    · exact .inl (hrun.trans hr)

/-! ## The advance -/

/-- The opcodes that set the pc to a target where the flags are `f` (40_dispatch.md R124); the others advance it. -/
def Redirects (f : Flags) : Opcode → Prop
  | .jmp | .call | .ret => True
  | .jeq => f = .eq
  | .jne => f ≠ .eq
  | _ => False

/-- An instruction that neither redirects nor ends the run advances the pc by its length (R125). -/
theorem Effect.pc_eq_add_length {i : Instr} {s t : State} (h : Effect s i t) (hrun : t.run = .running)
    (hi : ¬ Redirects s.fl i.opcode) : t.pc = s.pc + i.length := by
  cases h
  case fault | hlt => cases hrun
  case jmp | call | ret => exact absurd trivial hi
  case jeqTaken hf _ | jneTaken hf _ => exact absurd hf hi
  all_goals rfl

/-- From 256 up no opcode byte can be fetched, so a step raises AddressOutOfRange (D4). -/
theorem step_of_pc_ge {s : State} (hr : s.run = .running) (hpc : 256 ≤ s.pc) :
    step s = .next (s.raised .addressOutOfRange) :=
  stepWith_of_fetch_error hr (fetch_eq_error.2 (.inl ⟨hpc, rfl⟩))

/-- Settles O30: no opcode of the three clauses redirects, so each advances by the length of its row. -/
theorem advanceIsTheLengthAndNeverWraps : Obligations.AdvanceIsTheLengthAndNeverWraps := by
  constructor
  · intro i s t h hrun
    have advance {n : Nat} (hop : ¬ Redirects s.fl i.opcode ∧ i.opcode.length = n) :
        t.pc = s.pc + n ∧ i.length = n :=
      ⟨hop.2 ▸ (Effect.of_exec h).pc_eq_add_length hrun hop.1, hop.2⟩
    refine ⟨fun hop => advance ?_, fun hop => advance ?_, fun hop => advance ?_⟩ <;>
      generalize i.opcode = o at hop ⊢
    · fin_cases hop <;> exact ⟨id, rfl⟩
    · fin_cases hop <;> exact ⟨id, rfl⟩
    · obtain ⟨rfl, hf⟩ | ⟨rfl, hf⟩ := hop
      · exact ⟨hf, rfl⟩
      · exact ⟨not_not_intro hf, rfl⟩
  · intro t hr hpc
    change step t = .next (t.setRun (.faulted .addressOutOfRange 256))
    rw [step_of_pc_ge hr hpc.ge, State.raised, hpc]

/-! ## Runs -/

theorem runFor_add (n k : Nat) (s : State) : runFor (n + k) s = runFor k (runFor n s) := by
  induction n generalizing s with
  | zero => rw [Nat.zero_add, runFor]
  | succ n ih =>
    by_cases hr : s.run = .running
    · obtain ⟨t, ht⟩ := step_answers hr
      rw [Nat.succ_add, runFor_succ_of_step ht, runFor_succ_of_step ht, ih]
    · simp only [runFor_of_terminal hr]

/-- Settles O22: the remaining steps start where the first `n` end, and a terminal state stays as it is. -/
theorem terminalRunIsNeverResumed : Obligations.TerminalRunIsNeverResumed :=
  fun n k s => ⟨runFor_add n k s, fun hr => (runFor_add n k s).trans (runFor_of_terminal hr k)⟩

end Sys2Proof.Machine

/-! Immediate load and output (41_control_io.md): what LDI and PRN do where their operand names a register. -/

namespace Sys2Proof.Machine

theorem exec_ldi_of_lt {a : Byte} (b : Byte) (s : State) (h : a.toNat < 8) :
    exec (.ldi a b) s = .next ((s.setReg a.toNat b h).advance 3) :=
  (execLdi_eq a b s).trans (dif_pos h)

theorem exec_prn_of_lt {a : Byte} (s : State) (h : a.toNat < 8) :
    exec (.prn a) s = .next ((s.emit s.regs[a.toNat]).advance 2) :=
  (execPrn_eq a s).trans (dif_pos h)

/-- Settles O32: the advance leaves the registers as the write left them, so the read returns the byte written. -/
theorem ldiLoadsTheImmediate : Obligations.LdiLoadsTheImmediate := by
  intro a b s h
  have hread : readReg ((s.setReg a.toNat b h).advance 3) a = .ok b :=
    (readReg_congr (State.advance_regs _ 3) a).trans (readReg_setReg_same s b h)
  exact ⟨_, exec_ldi_of_lt b s h, rfl, hread⟩

/-- Settles O33: the emit and the advance are the two updates of the state that is stated (D17). -/
theorem prnEmitsTheRegister : Obligations.PrnEmitsTheRegister :=
  fun _ s h => exec_prn_of_lt s h

end Sys2Proof.Machine

/-! The ALU (42_alu.md): which operations it supports, the results reduced modulo 256 that ADD, SUB and MUL write, and
the flags that CMP sets. -/

namespace Sys2Proof.Machine

/-! ## UnsupportedOperation -/

/-- Neither a fetch nor an instruction raises UnsupportedOperation, and a step starts in `Running`. -/
theorem step_run_ne_unsupported {s t : State} (h : step s = .next t) (p : Nat) :
    t.run ≠ .faulted .unsupportedOperation p := by
  obtain ⟨hr, ⟨e, he, rfl⟩ | ⟨i, -, hi⟩⟩ := stepWith_eq_next.1 h
  · simp [fetch_error_ne_unsupported he]
  · obtain ⟨k, hk, rfl⟩ | ⟨-, rfl⟩ | hrun := exec_run_cases hi
    · simp [hk]
    · nofun
    · simp [hrun, hr]

/-- Settles O15: the ALU answers by its selector alone, and no step requests one that it does not implement (log
entry 20). -/
theorem unsupportedOperationIsUnreachable : Obligations.UnsupportedOperationIsUnreachable := by
  refine ⟨fun _ _ _ => rfl, fun op hop u v => ?_, fun s t p h => step_run_ne_unsupported h p⟩
  fin_cases hop <;> exact ⟨_, rfl⟩

/-! ## Operands that name registers -/

section
variable {a b : Byte} (s : State) (ha : a.toNat < 8) (hb : b.toNat < 8)

theorem exec_add_of_lt : exec (.add a b) s =
    .next ((s.setReg a.toNat (s.regs[a.toNat] + s.regs[b.toNat]) ha).advance 3) :=
  (execAdd_eq a b s).trans (dif_pos ⟨ha, hb⟩)

theorem exec_sub_of_lt : exec (.sub a b) s =
    .next ((s.setReg a.toNat (s.regs[a.toNat] - s.regs[b.toNat]) ha).advance 3) :=
  (execSub_eq a b s).trans (dif_pos ⟨ha, hb⟩)

theorem exec_mul_of_lt : exec (.mul a b) s =
    .next ((s.setReg a.toNat (s.regs[a.toNat] * s.regs[b.toNat]) ha).advance 3) :=
  (execMul_eq a b s).trans (dif_pos ⟨ha, hb⟩)

theorem exec_cmp_of_lt : exec (.cmp a b) s =
    .next ((s.setFl (compareFlags s.regs[a.toNat] s.regs[b.toNat])).advance 3) :=
  (execCmp_eq a b s).trans (dif_pos ⟨ha, hb⟩)

end

/-! ## ADD, SUB, MUL -/

/-- A difference of bytes is the integer difference modulo 256; the library's `BitVec.toNat_sub` says it in naturals. -/
theorem toNat_sub_eq_emod (u v : Byte) : ((u - v).toNat : Int) = ((u.toNat : Int) - (v.toNat : Int)) % 256 := by
  have hv := v.isLt
  rw [BitVec.toNat_sub]
  omega

/-- A signed byte that is an integer reduced to [-128,127] is that integer modulo 256. -/
theorem toInt_emod_of_eq_bmod {r : Byte} {x : Int} (h : r.toInt = x.bmod (2 ^ 8)) : r.toInt % 256 = x % 256 := by
  rw [h]
  exact Int.bmod_emod

/-- Settles O34: byte arithmetic is exact modulo 256 read unsigned and read signed, and the write and the advance are
the only updates. -/
theorem addSubMulWrapAndSetNoFlag : Obligations.AddSubMulWrapAndSetNoFlag := fun _ _ s ha hb =>
  ⟨⟨_, exec_add_of_lt s ha hb, BitVec.toNat_add .., toInt_emod_of_eq_bmod (BitVec.toInt_add ..)⟩,
    ⟨_, exec_sub_of_lt s ha hb, toNat_sub_eq_emod .., toInt_emod_of_eq_bmod (BitVec.toInt_sub ..)⟩,
    ⟨_, exec_mul_of_lt s ha hb, BitVec.toNat_mul .., toInt_emod_of_eq_bmod (BitVec.toInt_mul ..)⟩⟩

/-! ## CMP -/

theorem compareFlags_eq_eq {u v : Byte} : compareFlags u v = .eq ↔ u = v := by
  rw [← BitVec.toNat_inj, compareFlags]
  split_ifs with heq <;> simp [heq]

theorem compareFlags_eq_lt {u v : Byte} : compareFlags u v = .lt ↔ u.toNat < v.toNat := by
  rw [compareFlags]
  split_ifs with heq hlt
  · simp [heq]
  · simp [hlt]
  · simp [hlt]

theorem compareFlags_eq_gt {u v : Byte} : compareFlags u v = .gt ↔ v.toNat < u.toNat := by
  rw [compareFlags]
  split_ifs with heq hlt
  · simp [heq]
  · simp [hlt.le]
  · simp only [true_iff]
    omega

/-- Settles O35: CMP sets the flags of the comparison, each of which says how the two unsigned values compare (D7). -/
theorem cmpSetsExactlyOneFlag : Obligations.CmpSetsExactlyOneFlag := fun _ _ s ha hb =>
  ⟨_, exec_cmp_of_lt s ha hb, compareFlags_ne_none _ _, compareFlags_eq_eq, compareFlags_eq_lt, compareFlags_eq_gt⟩

end Sys2Proof.Machine

/-! Branches (43_branch.md): where JMP goes, and what the next step does at a target where no instruction fits. -/

namespace Sys2Proof.Machine

theorem exec_jmp_of_lt {a : Byte} (s : State) (h : a.toNat < 8) :
    exec (.jmp a) s = .next (s.setPc s.regs[a.toNat].toNat) :=
  (execJmp_eq a s).trans (dif_pos h)

/-- Settles O36: the pc is the one field that is set. -/
theorem jmpJumpsToTheRegister : Obligations.JmpJumpsToTheRegister :=
  fun _ s h => exec_jmp_of_lt s h

/-- At 254 and 255 the opcode byte is in range and its operand bytes are not, so the fetch faults; the opcode byte is
decoded first (R122, D3). -/
theorem step_of_pc_past_last {s : State} (hr : s.run = .running) (hge : 254 ≤ s.pc) (hlt : s.pc < 256) :
    step s = .next (s.raised (if decodeOpcode opcodeMap (s.mem.byte s.pc) = none then .invalidOpcode
      else .addressOutOfRange)) := by
  apply stepWith_of_fetch_error hr
  split_ifs with hop
  · exact fetch_eq_error.2 (.inr (.inl ⟨hlt, hop, rfl⟩))
  · exact fetch_eq_error.2 (.inr (.inr ⟨hge, hlt, hop, rfl⟩))

/-- Settles O38: JMP leaves `run` and memory alone, so the next step is in `Running` at the target (D3). -/
theorem jumpPastTheLastInstructionFaultsNext : Obligations.JumpPastTheLastInstructionFaultsNext :=
  fun _ s h hr hge => ⟨_, _, exec_jmp_of_lt s h, hr,
    step_of_pc_past_last (s := s.setPc _) hr hge (BitVec.isLt _), rfl⟩

end Sys2Proof.Machine

/-! Stack and subroutine call (44_stack_call.md): what PUSH, POP, CALL and RET do where none of them faults, and the two
stack laws R186 and R187. -/

namespace Sys2Proof.Machine

/-! ## The stack pointer among the registers -/

theorem ne_zero_of_one_le_toNat {v : Byte} (h : 1 ≤ v.toNat) : v ≠ 0 := by
  rintro rfl
  exact absurd h (by decide)

theorem ne_255_of_toNat_le_254 {v : Byte} (h : v.toNat ≤ 254) : v ≠ 255 := by
  rintro rfl
  exact absurd h (by decide)

/-- Moving the stack pointer leaves R0 to R6 alone. -/
theorem State.setSp_regs_of_lt (s : State) (v : Byte) {j : Nat} (hj : j < 7) : (s.setSp v).regs[j] = s.regs[j] :=
  Vector.getElem_set_ne (by decide) (hj.trans (by decide)) hj.ne'

/-- The registers are R0 to R6 and the stack pointer (10_state.md R32). -/
theorem State.regs_ext {s t : State} (h : ∀ j (hj : j < 7), t.regs[j] = s.regs[j]) (hsp : t.sp = s.sp) :
    t.regs = s.regs := by
  ext1 j hj
  obtain hlt | rfl : j < 7 ∨ j = 7 := by omega
  · exact h j hlt
  · exact hsp

/-! ## One byte pushed -/

/-- What PUSH and CALL share (R182, R184): the stack pointer decremented and `v` stored where it then points. -/
def State.pushByte (s : State) (v : Byte) : State :=
  (s.setSp (s.sp - 1)).setMem (s.mem.set (s.sp - 1).toNat v)

section
variable (s : State) (v : Byte)

theorem State.pushByte_sp : (s.pushByte v).sp = s.sp - 1 := s.setSp_sp (s.sp - 1)

theorem State.pushByte_sp_toNat (hsp : 1 ≤ s.sp.toNat) : (s.pushByte v).sp.toNat = s.sp.toNat - 1 := by
  rw [pushByte_sp, toNat_pred hsp]

theorem State.pushByte_regs_of_lt {j : Nat} (hj : j < 7) : (s.pushByte v).regs[j] = s.regs[j] :=
  s.setSp_regs_of_lt (s.sp - 1) hj

theorem State.pushByte_mem_wf (hs : s.mem.wf = true) : (s.pushByte v).mem.wf = true :=
  Memory.wf_set hs (BitVec.isLt _)

theorem State.pushByte_byte_sp (hs : s.mem.wf = true) :
    (s.pushByte v).mem.byte (s.pushByte v).sp.toNat = v := by
  rw [pushByte_sp]
  exact Memory.byte_set_same hs _ v

theorem State.pushByte_byte_of_ne (hs : s.mem.wf = true) {x : Nat} (hx : x ≠ (s.pushByte v).sp.toNat) :
    (s.pushByte v).mem.byte x = s.mem.byte x := by
  rw [pushByte_sp] at hx
  exact Memory.byte_set_of_ne hs v hx

end

/-! ## The instructions where they do not fault -/

section
variable {a : Byte} (s : State)

theorem exec_push_of_lt (ha : a.toNat < 8) (hsp : 1 ≤ s.sp.toNat) :
    exec (.push a) s = .next ((s.pushByte (s.setSp (s.sp - 1)).regs[a.toNat]).advance 2) :=
  (execPush_eq a s).trans ((if_neg (ne_zero_of_one_le_toNat hsp)).trans (dif_pos ha))

theorem exec_call_of_lt (ha : a.toNat < 8) (hsp : 1 ≤ s.sp.toNat) :
    exec (.call a) s =
      .next ((s.pushByte (returnAddress s)).setPc (s.setSp (s.sp - 1)).regs[a.toNat].toNat) :=
  (execCall_eq a s).trans ((if_neg (ne_zero_of_one_le_toNat hsp)).trans (dif_pos ha))

/-- POP to R0 to R6: the destination and the stack pointer are different registers. -/
theorem exec_pop_of_lt (ha : a.toNat < 7) (hsp : s.sp.toNat ≤ 254) :
    exec (.pop a) s =
      .next (((s.setReg a.toNat (s.mem.byte s.sp.toNat) (ha.trans (by decide))).setSp (s.sp + 1)).advance 2) := by
  have hkeep : (s.setReg a.toNat (s.mem.byte s.sp.toNat) (ha.trans (by decide))).sp = s.sp := by
    rw [State.setReg_sp, if_neg ha.ne]
  rw [exec, execPop_eq, dif_pos (ha.trans (by decide)), hkeep, if_neg (ne_255_of_toNat_le_254 hsp)]

/-- POP R7: the popped byte becomes the stack pointer, which is then incremented (R183). -/
theorem exec_pop_seven (hv : (s.mem.byte s.sp.toNat).toNat ≤ 254) :
    exec (.pop 7) s =
      .next (((s.setSp (s.mem.byte s.sp.toNat)).setSp (s.mem.byte s.sp.toNat + 1)).advance 2) := by
  have hsp : (s.setReg (7 : Byte).toNat (s.mem.byte s.sp.toNat) (by decide)).sp = s.mem.byte s.sp.toNat :=
    s.setSp_sp _
  rw [exec, execPop_eq, dif_pos (by decide), hsp, if_neg (ne_255_of_toNat_le_254 hv)]
  rfl

theorem exec_ret_of_le (hsp : s.sp.toNat ≤ 254) :
    exec .ret s = .next ((s.setSp (s.sp + 1)).setPc (s.mem.byte s.sp.toNat).toNat) :=
  (execRet_eq s).trans (if_neg (ne_255_of_toNat_le_254 hsp))

end

/-- From an address an instruction can be fetched at, the return address is not reduced (R184). -/
theorem returnAddress_toNat {s : State} (h : s.pc ≤ 253) : (returnAddress s).toNat = s.pc + 2 := by
  rw [returnAddress, BitVec.toNat_ofNat]
  omega

/-- Settles O39: PUSH pushes the byte that its register holds after `SPDec()`, and advances. -/
theorem pushStoresBelowTheStackPointer : Obligations.PushStoresBelowTheStackPointer := by
  intro a s ha hs hsp
  have hdec := spDec_of_ne (ne_zero_of_one_le_toNat hsp)
  have hpush := exec_push_of_lt s ha hsp
  generalize hv : (s.setSp (s.sp - 1)).regs[a.toNat] = v at hpush
  exact ⟨_, _, hdec, s.pushByte_sp_toNat v hsp, hpush, (s.pushByte_byte_sp v hs).trans hv.symm,
    fun h => s.setSp_regs_of_lt _ h, fun _ hx => s.pushByte_byte_of_ne v hs hx, s.pushByte_mem_wf v hs, rfl,
    fun _ hj => s.pushByte_regs_of_lt v hj, rfl, rfl, rfl, rfl⟩

/-- Settles O41: CALL pushes the return address, and reads its target after `SPDec()`. -/
theorem callPushesTheReturnAddress : Obligations.CallPushesTheReturnAddress := by
  intro a s ha hs hpc hsp
  have hdec := spDec_of_ne (ne_zero_of_one_le_toNat hsp)
  have hcall := exec_call_of_lt s ha hsp
  have hv := returnAddress_toNat hpc
  generalize returnAddress s = v at hcall hv
  exact ⟨_, _, hdec, s.pushByte_sp_toNat v hsp, hcall, (congrArg BitVec.toNat (s.pushByte_byte_sp v hs)).trans hv,
    fun _ hx => s.pushByte_byte_of_ne v hs hx, s.pushByte_mem_wf v hs, rfl, fun h => s.setSp_regs_of_lt _ h, rfl,
    fun _ hj => s.pushByte_regs_of_lt v hj, rfl, rfl, rfl⟩

/-- Settles O40: POP writes its destination and then increments the stack pointer, which for R7 is the byte just
written. -/
theorem popLoadsFromTheStackPointer : Obligations.PopLoadsFromTheStackPointer := by
  constructor
  · intro a s ha hsp
    refine ⟨_, exec_pop_of_lt s ha hsp, ?_, ?_, fun j hj hne => ?_, rfl, rfl, rfl, rfl, rfl⟩
    · exact (State.setSp_regs_of_lt _ _ ha).trans (Vector.getElem_set_self _)
    · rw [State.advance_sp, State.setSp_sp, toNat_succ hsp]
    · exact (State.setSp_regs_of_lt _ _ hj).trans (Vector.getElem_set_ne (ha.trans (by decide)) _ hne.symm)
  · intro s hv
    refine ⟨_, exec_pop_seven s hv, ?_, fun j hj => ?_, rfl, rfl, rfl, rfl, rfl⟩
    · rw [State.advance_sp, State.setSp_sp, toNat_succ hv]
    · exact (State.setSp_regs_of_lt _ _ hj).trans (s.setSp_regs_of_lt _ hj)

/-- Settles O42: the byte is read before the stack pointer is incremented. -/
theorem retPopsThePc : Obligations.RetPopsThePc := by
  intro s hsp
  refine ⟨_, exec_ret_of_le s hsp, rfl, ?_, fun _ hj => s.setSp_regs_of_lt _ hj, rfl, rfl, rfl, rfl⟩
  rw [State.setPc_sp, State.setSp_sp, toNat_succ hsp]

/-! ## The stack laws -/

/-- A step in `Running` at the opcode byte of a row runs that row's instruction. -/
theorem stepWith_of_opcode {m : OpcodeMap} (hm : m.Injective) {s : State} {o : Opcode} (hr : s.run = .running)
    (hpc : s.pc ≤ 253) (hop : s.mem.byte s.pc = m o) :
    stepWith m s = exec (o.build (s.mem.byte (s.pc + 1)) (s.mem.byte (s.pc + 2))) s :=
  stepWith_of_fetch hr (fetch_of_opcode hm hpc hop)

/-- Settles O48: the push leaves the bytes of the POP alone, so the next step pops the byte just pushed. Where R7 is
the source the decremented stack pointer is pushed, and where it is the destination the popped byte replaces the
stack pointer (90_conflicts.md C2): both shown from reset. -/
theorem pushThenPopRestores : Obligations.PushThenPopRestores := by
  refine ⟨?_, ⟨State.reset, _, _, rfl, rfl, rfl, by decide⟩, ⟨State.reset, _, _, rfl, rfl, rfl, by decide⟩⟩
  intro m s r r2 hr hr2 hm hrun hs hpc hsp hpush hsrc hpop hdst hne2 hne3
  obtain ⟨s1, t1, -, hsp1, hexec1, hbyte1, hkeep1, hframe1, -, hspt1, -, hpc1, -, -, hrun1⟩ :=
    pushStoresBelowTheStackPointer r s (hr.trans (by decide)) hs hsp
  rw [← hspt1] at hsp1 hbyte1 hframe1
  obtain ⟨t2, hexec2, hreg2, hsp2, -, hmem2, -, -, -, hrun2⟩ :=
    popLoadsFromTheStackPointer.1 r2 t1 hr2 (by omega)
  have hpop1 : t1.mem.byte t1.pc = m .pop := by rw [hpc1, hframe1 _ (by omega), hpop]
  have hdst1 : t1.mem.byte (t1.pc + 1) = r2 := by rw [hpc1, hframe1 _ (by omega), hdst]
  have hval : t1.mem.byte t1.sp.toNat = s.regs[r.toNat] := hbyte1.trans (hkeep1 hr)
  refine ⟨t1, t2, ?_, ?_, ?_, hreg2.trans hval, ?_, ?_⟩
  · rw [stepWith_of_opcode hm hrun (by omega) hpush, hsrc]
    exact hexec1
  · rw [stepWith_of_opcode hm (hrun1.trans hrun) (by omega) hpop1, hdst1]
    exact hexec2
  · rw [hrun2, hrun1, hrun]
  · exact BitVec.eq_of_toNat_eq (by omega)
  · rw [hmem2, ← hsp1, hval]

/-- Settles O49: the target's byte is not the one pushed, so the next step is the RET, which pops the return address
and puts the stack pointer back. -/
theorem callThenRetRestores : Obligations.CallThenRetRestores := by
  intro m s a ha hm hrun hs hpc hsp hcall hreg hret htarget hne
  obtain ⟨s1, t1, -, hsp1, hexec1, hbyte1, hframe1, -, hpc1, hkeep1, hspt1, hregs1, hfl1, -, hrun1⟩ :=
    callPushesTheReturnAddress a s (ha.trans (by decide)) hs hpc hsp
  rw [← hspt1] at hsp1 hbyte1 hframe1
  rw [hkeep1 ha] at hpc1
  obtain ⟨t2, hexec2, hpc2, hsp2, hregs2, hmem2, hfl2, -, hrun2⟩ := retPopsThePc t1 (by omega)
  have hret1 : t1.mem.byte t1.pc = m .ret := by rw [hpc1, hframe1 _ (by omega), hret]
  have hsp' : t2.sp = s.sp := BitVec.eq_of_toNat_eq (by omega)
  refine ⟨t1, t2, ?_, ?_, ?_, hpc2.trans hbyte1, ?_, hfl2.trans hfl1, ?_⟩
  · rw [stepWith_of_opcode hm hrun hpc hcall, hreg]
    exact hexec1
  · rw [stepWith_of_opcode hm (hrun1.trans hrun) (by omega) hret1]
    exact hexec2
  · rw [hrun2, hrun1, hrun]
  · exact State.regs_ext (fun j hj => (hregs2 j hj).trans (hregs1 j hj)) hsp'
  · rw [hmem2, ← hsp1, hbyte1]

end Sys2Proof.Machine

/-! Boot and hazards (70_reset_and_hazards.md): the state a launch gives, that a placed word is what the next step runs,
and that a step faults nowhere but where the fault table says. -/

namespace Sys2Proof.Machine

/-! ## Launch -/

/-- A launch succeeds for the images that fit, with construction's state over the image (R231). -/
theorem launch_eq_ok {sp : Byte} {image : List Byte} {s : State} :
    launch sp image = .ok s ↔
      image.length ≤ 256 ∧ (State.construct sp).setMem (Memory.setBytes [] 0 image) = s := by
  unfold launch
  split_ifs with hlen <;> simp [hlen]

theorem launch_of_lt {sp : Byte} {image : List Byte} (h : 256 < image.length) :
    launch sp image = .error .imageTooLong :=
  if_neg (Nat.not_le.2 h)

theorem State.construct_regs_of_lt (sp : Byte) {j : Nat} (hj : j < 7) : (State.construct sp).regs[j] = 0 := by
  interval_cases j <;> rfl

/-- Settles O2: memory by the bytes of a launch, the rest by construction. -/
theorem launchPlacesTheImage : Obligations.LaunchPlacesTheImage := by
  refine fun sp image => ⟨fun hlen => ?_, launch_of_lt⟩
  have hlaunch := launch_eq_ok (sp := sp).2 ⟨hlen, rfl⟩
  refine ⟨_, hlaunch, fun a ha => ?_, fun a ha => ?_, rfl, fun _ hj => State.construct_regs_of_lt sp hj, rfl, rfl,
    rfl, rfl⟩
  · rw [launch_byte hlaunch, List.getD_eq_getElem _ _ ha]
  · rw [launch_byte hlaunch, List.getD_eq_default _ _ ha]

/-- Settles O20: placing an image that fits keeps the canonical form, and a launched core is Running at 0. -/
theorem invariantHoldsAtEveryLaunch : Obligations.InvariantHoldsAtEveryLaunch := by
  intro sp image s h
  obtain ⟨hlen, rfl⟩ := launch_eq_ok.1 h
  exact ⟨Memory.wf_setBytes rfl (by simpa using hlen), Nat.zero_le _, nofun, nofun⟩

/-! ## A placed word -/

theorem decodeTableWord_eq_some {nbits w : Nat} {i : Instr} :
    decodeTableWord nbits w = some i ↔ ∃ rest, decode opcodeMap (tableBytes nbits w) = .ok (i, rest) := by
  unfold decodeTableWord
  cases decode opcodeMap (tableBytes nbits w) <;> simp [Prod.ext_iff]

/-- A word is placed where an instruction can be fetched (R66). -/
theorem placeAddress_le (s : State) : placeAddress s ≤ 253 := by
  unfold placeAddress
  split_ifs with h
  · exact h
  · decide

/-- At most three bytes that are placed stand at the pc. -/
theorem placeBytes_byte {s : State} (hs : s.mem.wf = true) {bytes : List Byte} (hlen : bytes.length ≤ 3) {k : Nat}
    (hk : k < bytes.length) : (placeBytes s bytes).mem.byte ((placeBytes s bytes).pc + k) = bytes[k] := by
  have hpc := placeAddress_le s
  calc (s.mem.setBytes (placeAddress s) bytes).byte (placeAddress s + k)
    _ = bytes.getD k (s.mem.byte (placeAddress s + k)) := by
      rw [Memory.byte_setBytes hs _ _ _ (by omega), if_pos (Nat.le_add_right _ k), Nat.add_sub_cancel_left]
    _ = bytes[k] := List.getD_eq_getElem _ _ hk

/-- Settles O18: the three bytes at the pc are the word's. -/
theorem placedWordRunsNext : Obligations.PlacedWordRunsNext := by
  intro s nbits w i hs h
  obtain ⟨rest, hdecode⟩ := decodeTableWord_eq_some.1 h
  have hbyte (k : Nat) (hk : k < 3) := placeBytes_byte hs (bytes := tableBytes nbits w) le_rfl hk
  refine stepRunsTheDecodedInstruction _ i rest rfl (placeAddress_le s) ?_
  rw [State.withFetchWord, ← Nat.add_zero (placeBytes _ _).pc, hbyte 0 (by decide),
    hbyte 1 (by decide), hbyte 2 (by decide)]
  exact hdecode

/-! ## Where a step is safe -/

/-- The stack pointer POP increments is the popped byte where R7 is the destination, and otherwise the one before
(R183). -/
theorem noFaultListed_pop {s : State} {a : Byte} :
    NoFaultListed s (.pop a) ↔ ∃ ha : a.toNat < 8, (s.setReg a.toNat (s.mem.byte s.sp.toNat) ha).sp ≠ 255 := by
  by_cases h7 : a = 7
  · subst h7
    simp [NoFaultListed, State.setReg_sp]
  · have hne : a.toNat ≠ 7 := fun e => h7 (BitVec.eq_of_toNat_eq e)
    have hlt : a.toNat < 7 ↔ a.toNat < 8 := by omega
    simp only [NoFaultListed, State.setReg_sp, h7, hne, hlt, false_and, or_false, if_false, exists_prop]

/-- An instruction completes only where no fault is listed for it. -/
theorem Effect.noFaultListed {s t : State} {i : Instr} (h : Effect s i t) (hsafe : ∀ k p, t.run ≠ .faulted k p) :
    NoFaultListed s i := by
  cases h
  case fault => exact absurd rfl (hsafe _ _)
  case hlt => trivial
  case ldi ha | prn ha | jmp ha => exact ha
  case add ha hb | sub ha hb | mul ha hb | cmp ha hb => exact ⟨ha, hb⟩
  case jeqTaken ha | jneTaken ha => exact fun _ => ha
  case jeqNotTaken hf => exact fun heq => absurd heq hf
  case jneNotTaken hf => exact fun hne => absurd hf hne
  case push hsp ha | call hsp ha => exact ⟨ha, hsp⟩
  case pop ha hsp => exact noFaultListed_pop.2 ⟨ha, hsp⟩
  case ret hsp => exact hsp

/-- Where no fault is listed for an instruction, it completes. -/
theorem exec_of_noFaultListed {s : State} {i : Instr} (h : NoFaultListed s i) :
    ∃ t, exec i s = .next t ∧ (t.run = .halted ∨ t.run = s.run) := by
  cases i
  case hlt => exact ⟨_, execHlt_eq s, .inl rfl⟩
  case ldi a b => exact ⟨_, exec_ldi_of_lt b s h, .inr rfl⟩
  case prn a => exact ⟨_, exec_prn_of_lt s h, .inr rfl⟩
  case add a b => exact ⟨_, exec_add_of_lt s h.1 h.2, .inr rfl⟩
  case sub a b => exact ⟨_, exec_sub_of_lt s h.1 h.2, .inr rfl⟩
  case mul a b => exact ⟨_, exec_mul_of_lt s h.1 h.2, .inr rfl⟩
  case cmp a b => exact ⟨_, exec_cmp_of_lt s h.1 h.2, .inr rfl⟩
  case jmp a => exact ⟨_, exec_jmp_of_lt s h, .inr rfl⟩
  case jeq a =>
    by_cases hf : s.fl = .eq
    · exact ⟨_, (execJeq_eq a s).trans ((if_pos hf).trans (dif_pos (h hf))), .inr rfl⟩
    · exact ⟨_, (execJeq_eq a s).trans (if_neg hf), .inr rfl⟩
  case jne a =>
    by_cases hf : s.fl ≠ .eq
    · exact ⟨_, (execJne_eq a s).trans ((if_pos hf).trans (dif_pos (h hf))), .inr rfl⟩
    · exact ⟨_, (execJne_eq a s).trans (if_neg hf), .inr rfl⟩
  case push a => exact ⟨_, (execPush_eq a s).trans ((if_neg h.2).trans (dif_pos h.1)), .inr rfl⟩
  case pop a =>
    obtain ⟨ha, hsp⟩ := noFaultListed_pop.1 h
    exact ⟨_, (execPop_eq a s).trans ((dif_pos ha).trans (if_neg hsp)), .inr rfl⟩
  case call a => exact ⟨_, (execCall_eq a s).trans ((if_neg h.2).trans (dif_pos h.1)), .inr rfl⟩
  case ret => exact ⟨_, (execRet_eq s).trans (if_neg h), .inr rfl⟩

/-- Settles O17: a step that is not Faulted has fetched an instruction and completed it, and one for which no fault is
listed completes. -/
theorem stepIsSafeWhereNoFaultIsListed : Obligations.StepIsSafeWhereNoFaultIsListed := by
  refine fun s hr => ⟨?_, ?_⟩
  · rintro ⟨t, hstep, hsafe⟩
    obtain ⟨-, ⟨e, -, rfl⟩ | ⟨i, hi, hexec⟩⟩ := stepWith_eq_next.1 hstep
    · exact absurd rfl (hsafe e s.pc)
    · exact ⟨i, hi, (Effect.of_exec hexec).noFaultListed hsafe⟩
  · rintro ⟨i, hi, hlisted⟩
    obtain ⟨t, hexec, hrun⟩ := exec_of_noFaultListed hlisted
    rw [hr] at hrun
    exact ⟨t, (stepWith_of_fetch hr hi).trans hexec, by rcases hrun with h | h <;> simp [h]⟩

end Sys2Proof.Machine

/-! Faults (60_exceptions.md): which fault a fetch raises, what a faulting step leaves, and which instructions raise
InvalidRegister and AddressOutOfRange; for JEQ and JNE, when they read their operand at all (43_branch.md). -/

namespace Sys2Proof.Machine

/-! ## Faults of a step -/

/-- Settles O11: each clause is one of the three reasons a fetch fails for, in the order of R203 (D3). -/
theorem fetchFaultsInOrder : Obligations.FetchFaultsInOrder := by
  intro s hr
  have fault {e : FaultKind} (hf : fetch opcodeMap s = .error e) : step s = .next (s.raised e) :=
    stepWith_of_fetch_error hr hf
  refine ⟨fun hge => step_of_pc_ge hr hge, fun hlt hop => fault ?_, fun hge hlt ⟨o, ho⟩ => fault ?_⟩
  · exact fetch_eq_error.2 (.inr (.inl ⟨hlt, decodeOpcode_none.2 hop, rfl⟩))
  · exact fetch_eq_error.2 (.inr (.inr ⟨hge, hlt, fun hnone => decodeOpcode_none.1 hnone o ho, rfl⟩))

/-- Settles O13: every branch of every meaning's equation is a next state (log entry 21). -/
theorem everyInstructionAnswersANextState : Obligations.EveryInstructionAnswersANextState :=
  exec_answers

/-- A step from `Running` that ends Faulted raised that fault on the state it began in. -/
theorem step_eq_raised {s t : State} {k : FaultKind} {p : Nat} (h : step s = .next t) (ht : t.run = .faulted k p) :
    ∃ e, t = s.raised e := by
  obtain ⟨hr, ⟨e, -, rfl⟩ | ⟨i, -, hi⟩⟩ := stepWith_eq_next.1 h
  · exact ⟨e, rfl⟩
  · obtain ⟨e, -, rfl⟩ | ⟨-, rfl⟩ | hrun := exec_run_cases hi
    · exact ⟨e, rfl⟩
    · cases ht
    · rw [hrun, hr] at ht
      cases ht

/-- Settles O14: raising a fault writes `run` alone, with the pc of the state it is raised on (D9). -/
theorem faultIsPreciseAndReportsThePc : Obligations.FaultIsPreciseAndReportsThePc := by
  intro s t k p h ht
  obtain ⟨e, rfl⟩ := step_eq_raised h ht
  cases ht
  exact ⟨rfl, rfl⟩

/-! ## JEQ and JNE by the flags -/

section
variable {s : State} (a : Byte)

theorem exec_jeq_taken (hf : s.fl = .eq) : exec (.jeq a) s = exec (.jmp a) s :=
  if_pos hf

theorem exec_jeq_notTaken (hf : s.fl ≠ .eq) : exec (.jeq a) s = .next (s.advance 2) :=
  if_neg hf

theorem exec_jne_taken (hf : s.fl ≠ .eq) : exec (.jne a) s = exec (.jmp a) s :=
  if_pos hf

theorem exec_jne_notTaken (hf : s.fl = .eq) : exec (.jne a) s = .next (s.advance 2) :=
  if_neg (not_not_intro hf)

end

/-- Settles O37: taken, JEQ and JNE are JMP; not taken, they advance whatever their operand is (D11). -/
theorem jeqAndJneBranchOnEqual : Obligations.JeqAndJneBranchOnEqual := fun a s =>
  ⟨fun h hf => (exec_jeq_taken a hf).trans (exec_jmp_of_lt s h), exec_jeq_notTaken a,
    fun h hf => (exec_jne_taken a hf).trans (exec_jmp_of_lt s h), exec_jne_notTaken a⟩

/-! ## InvalidRegister -/

section
variable {a b : Byte} (s : State)

theorem exec_jmp_of_ge (h : 8 ≤ a.toNat) : exec (.jmp a) s = .next (s.raised .invalidRegister) :=
  (execJmp_eq a s).trans (dif_neg (Nat.not_lt.2 h))

/-- LDI, PRN, JMP and POP check the register before anything else can fault. -/
theorem exec_of_operand_ge (h : 8 ≤ a.toNat) {i : Instr} (hi : i ∈ [Instr.ldi a b, .prn a, .jmp a, .pop a]) :
    exec i s = .next (s.raised .invalidRegister) := by
  have hn : ¬ a.toNat < 8 := Nat.not_lt.2 h
  fin_cases hi
  · exact (execLdi_eq a b s).trans (dif_neg hn)
  · exact (execPrn_eq a s).trans (dif_neg hn)
  · exact exec_jmp_of_ge s h
  · exact (execPop_eq a s).trans (dif_neg hn)

/-- PUSH and CALL check the stack pointer before the register (D10). -/
theorem exec_push_call_of_operand_ge (h : 8 ≤ a.toNat) (hsp : s.sp ≠ 0) {i : Instr}
    (hi : i ∈ [Instr.push a, .call a]) : exec i s = .next (s.raised .invalidRegister) := by
  have hn : ¬ a.toNat < 8 := Nat.not_lt.2 h
  fin_cases hi
  · exact (execPush_eq a s).trans ((if_neg hsp).trans (dif_neg hn))
  · exact (execCall_eq a s).trans ((if_neg hsp).trans (dif_neg hn))

theorem exec_alu_of_operand_ge (h : 8 ≤ a.toNat ∨ 8 ≤ b.toNat) {i : Instr}
    (hi : i ∈ [Instr.add a b, .sub a b, .mul a b, .cmp a b]) :
    exec i s = .next (s.raised .invalidRegister) := by
  have hn : ¬ (a.toNat < 8 ∧ b.toNat < 8) := by omega
  have fault (op : AluOp) : aluInstr op a b s = .next (s.raised .invalidRegister) :=
    (aluInstr_eq op a b s).trans (dif_neg hn)
  fin_cases hi <;> exact fault _

end

/-- Settles O43, instruction by instruction: a taken JEQ or JNE faults as JMP does (D11). -/
theorem invalidRegisterOperandFaults : Obligations.InvalidRegisterOperandFaults := fun _ _ s =>
  ⟨fun h => ⟨fun _ => exec_of_operand_ge s h, fun hsp _ => exec_push_call_of_operand_ge s h hsp,
    fun hf => (exec_jeq_taken _ hf).trans (exec_jmp_of_ge s h),
    fun hf => (exec_jne_taken _ hf).trans (exec_jmp_of_ge s h)⟩, fun h _ => exec_alu_of_operand_ge s h⟩

/-! ## The stack pointer's range -/

section
variable {s : State} {a : Byte}

theorem exec_push_call_of_sp_zero (hsp : s.sp = 0) {i : Instr} (hi : i ∈ [Instr.push a, .call a]) :
    exec i s = .next (s.raised .addressOutOfRange) := by
  fin_cases hi
  · exact (execPush_eq a s).trans (if_pos hsp)
  · exact (execCall_eq a s).trans (if_pos hsp)

theorem exec_ret_of_sp_255 (hsp : s.sp = 255) : exec .ret s = .next (s.raised .addressOutOfRange) :=
  (execRet_eq s).trans (if_pos hsp)

/-- POP faults where its write leaves 255 in the stack pointer, which it then increments (R183). -/
theorem exec_pop_of_sp_255 (ha : a.toNat < 8)
    (hsp : (s.setReg a.toNat (s.mem.byte s.sp.toNat) ha).sp = 255) :
    exec (.pop a) s = .next (s.raised .addressOutOfRange) :=
  (execPop_eq a s).trans ((dif_pos ha).trans (if_pos hsp))

end

/-- Settles O44: the stack pointer that POP increments is the one before, or the popped byte for POP R7 (D8, D10). -/
theorem stackPointerNeverLeavesMemory : Obligations.StackPointerNeverLeavesMemory := by
  refine fun a s => ⟨fun hsp _ => exec_push_call_of_sp_zero hsp, exec_ret_of_sp_255, fun hsp ha => ?_, fun hv => ?_⟩
  · exact exec_pop_of_sp_255 (ha.trans (by decide)) (by rw [State.setReg_sp, if_neg ha.ne, hsp])
  · exact exec_pop_of_sp_255 (by decide) ((s.setSp_sp _).trans hv)

/-- Settles O47: the checks `x[7] = 0` and `x[7] = 255` are the bounds on the integers, within which the byte
arithmetic is exact (D8). -/
theorem stackPointerUpdatesAreChecked : Obligations.StackPointerUpdatesAreChecked := by
  intro s
  refine ⟨fun h => ?_, fun h => ?_, fun h => ?_, fun h => ?_⟩
  · exact if_pos (by omega)
  · have hge : 1 ≤ s.sp.toNat := by omega
    have hsp : (s.setSp (s.sp - 1)).sp = s.sp - 1 := s.setSp_sp _
    refine ⟨_, spDec_of_ne (ne_zero_of_one_le_toNat hge), ?_, by rw [hsp]; rfl⟩
    rw [hsp, toNat_pred hge]
    omega
  · exact if_pos h
  · have hle : s.sp.toNat ≤ 254 := by omega
    have hsp : (s.setSp (s.sp + 1)).sp = s.sp + 1 := s.setSp_sp _
    exact ⟨_, spInc_of_ne (ne_255_of_toNat_le_254 hle), by rw [hsp, toNat_succ hle], by rw [hsp]; rfl⟩

end Sys2Proof.Machine

/-! Reset and HLT (70_reset_and_hazards.md R230, 41_control_io.md R140). -/

namespace Sys2Proof.Machine

/-- Settles O1: reset is construction with the default `SP_INIT` (D5), over a memory that lists no byte. -/
theorem resetStateIsAsSpecified : Obligations.ResetStateIsAsSpecified :=
  ⟨fun _ hj => State.construct_regs_of_lt spInit hj, rfl, rfl, rfl, fun _ => rfl, rfl, rfl⟩

/-- Settles O19: reset is a launch of the empty image. -/
theorem invariantHoldsAtReset : Obligations.InvariantHoldsAtReset :=
  invariantHoldsAtEveryLaunch spInit [] State.reset rfl

/-- Settles O31: HLT writes `run` alone, so the pc stays (D12). -/
theorem hltHalts : Obligations.HltHalts :=
  execHlt_eq

end Sys2Proof.Machine

/-! Opcode bytes (30_encoding.md R93, R99): which bytes have a table entry, and the encodings written out. -/

namespace Sys2Proof

/-- A byte value has a table entry exactly when it is the value of a row's byte. -/
theorem decodeOpcode_isSome_iff {m : OpcodeMap} {n : Nat} (hn : n < 256) :
    (decodeOpcode m (BitVec.ofNat 8 n)).isSome ↔ n ∈ Opcode.all.map fun o => (m o).toNat := by
  rw [Option.isSome_iff_ne_none, ne_eq, decodeOpcode_none]
  simp only [not_forall, not_not, List.mem_map, Opcode.mem_all, true_and, ← BitVec.toNat_inj, BitVec.toNat_ofNat,
    Nat.mod_eq_of_lt hn]

/-- Under an injective map 14 byte values have a table entry (R96). -/
theorem length_filter_decodeOpcode_isSome {m : OpcodeMap} (hm : m.Injective) :
    ((List.range 256).filter fun n => (decodeOpcode m (BitVec.ofNat 8 n)).isSome).length = 14 := by
  have hnodup : (Opcode.all.map fun o => (m o).toNat).Nodup :=
    (show Opcode.all.Nodup by decide).map fun o o' h => hm o o' (BitVec.eq_of_toNat_eq h)
  have hperm : ((List.range 256).filter fun n => (decodeOpcode m (BitVec.ofNat 8 n)).isSome).Perm
      (Opcode.all.map fun o => (m o).toNat) := by
    refine (List.perm_ext_iff_of_nodup (List.nodup_range.filter _) hnodup).2 fun n => ?_
    rw [List.mem_filter, List.mem_range]
    refine ⟨fun ⟨hn, h⟩ => (decodeOpcode_isSome_iff hn).1 h, fun h => ?_⟩
    obtain ⟨o, -, rfl⟩ := List.mem_map.1 h
    exact ⟨(m o).isLt, (decodeOpcode_isSome_iff (m o).isLt).2 h⟩
  rw [hperm.length_eq, List.length_map]
  rfl

/-- Settles O6: the 14 rows of the default map have different bytes (D1), none of them 0, which leaves 242. -/
theorem unlistedOpcodeBytes : Obligations.UnlistedOpcodeBytes := by
  refine ⟨?_, decodeOpcode_none.2 fun o => by cases o <;> decide⟩
  have hsplit := List.length_eq_length_filter_add (l := List.range 256)
    fun n => (decodeOpcode opcodeMap (BitVec.ofNat 8 n)).isSome
  simp only [List.length_range, length_filter_decodeOpcode_isSome opcodeMap_injective, Option.not_isSome] at hsplit
  omega

/-- Settles O7: the bytes are encodings under the default map (D1). -/
theorem writtenOutWordsDecode : Obligations.WrittenOutWordsDecode := by
  have hdecode (i : Instr) : decode opcodeMap (encode opcodeMap i ++ []) = .ok (i, []) :=
    decodeOfEncodeIsTheInstruction opcodeMap opcodeMap_injective i []
  exact ⟨hdecode .hlt, hdecode (.ldi 3 255), hdecode (.prn 5), hdecode (.sub 7 0), hdecode (.jeq 3), hdecode (.pop 4),
    hdecode (.call 8), hdecode .ret⟩

end Sys2Proof

/-! Assembler text (30_encoding.md R100): words and the blanks between them, the text of a register and of an immediate,
and the line of an instruction. -/

namespace Sys2Proof

/-! ## Words -/

/-- A text that parses as one word: at least one character, and no space, tab or comma. -/
def IsWord (w : List Char) : Prop := w ≠ [] ∧ ∀ c ∈ w, isWordChar c = true

/-- A text at which a word before it ends. -/
def EndsWord (l : List Char) : Prop := ∀ c ∈ l.head?, isWordChar c = false

theorem IsWord.takeWhile_append {w l : List Char} (hw : IsWord w) (hl : EndsWord l) :
    (w ++ l).takeWhile isWordChar = w := by
  rw [List.takeWhile_append_of_pos hw.2]
  cases l with
  | nil => simp
  | cons c l => simp [hl c rfl]

theorem IsWord.dropWhile_append {w l : List Char} (hw : IsWord w) (hl : EndsWord l) :
    (w ++ l).dropWhile isWordChar = l := by
  rw [List.dropWhile_append_of_pos hw.2]
  cases l with
  | nil => simp
  | cons c l => simp [hl c rfl]

theorem IsWord.takeWhile {w : List Char} (hw : IsWord w) : w.takeWhile isWordChar = w :=
  List.takeWhile_eq_self_iff.2 hw.2

theorem IsWord.dropWhile {w : List Char} (hw : IsWord w) : w.dropWhile isWordChar = [] :=
  List.dropWhile_eq_nil_iff.2 hw.2

theorem isAsmSpace_of_isWordChar {c : Char} (h : isWordChar c = true) : isAsmSpace c = false := by
  simp_all [isWordChar]

theorem IsWord.dropSpaces_append {w : List Char} (hw : IsWord w) (l : List Char) :
    dropSpaces (w ++ l) = w ++ l := by
  obtain ⟨hne, hchars⟩ := hw
  cases w with
  | nil => exact absurd rfl hne
  | cons c w => simp [dropSpaces, isAsmSpace_of_isWordChar (hchars c List.mem_cons_self)]

theorem IsWord.dropSpaces {w : List Char} (hw : IsWord w) : dropSpaces w = w := by
  simpa using hw.dropSpaces_append []

@[simp] theorem dropSpaces_nil : dropSpaces [] = [] := rfl

theorem dropSpaces_space_cons (l : List Char) : dropSpaces (' ' :: l) = dropSpaces l := rfl

/-! ## The text of a register and of an immediate -/

/-- A register's name reads back as the register. -/
theorem regNames_roundTrip : ∀ p ∈ regNames, regText p.2 = some p.1 ∧ parseReg p.1 = some p.2 ∧ IsWord p.1 := by
  intro p hp
  fin_cases hp <;> exact ⟨rfl, rfl, nofun, List.all_eq_true.1 rfl⟩

theorem exists_regName {a : Byte} (ha : isRegIndex a = true) : ∃ t, (t, a) ∈ regNames := by
  have hnames : ∀ n < 8, ∃ p ∈ regNames, p.2 = BitVec.ofNat 8 n := by decide
  obtain ⟨⟨t, _⟩, hp, rfl⟩ := hnames a.toNat (of_decide_eq_true ha)
  exact ⟨t, by simpa using hp⟩

theorem exists_regText {a : Byte} (ha : isRegIndex a = true) :
    ∃ t, regText a = some t ∧ parseReg t = some a ∧ IsWord t := by
  obtain ⟨t, ht⟩ := exists_regName ha
  exact ⟨t, regNames_roundTrip _ ht⟩

/-- An index above 7 has no name. -/
theorem regText_eq_none {a : Byte} (ha : isRegIndex a = false) : regText a = none := by
  have hindex : ∀ p ∈ regNames, isRegIndex p.2 = true := by decide
  simp only [regText, Option.map_eq_none_iff, List.find?_eq_none, beq_iff_eq]
  rintro p hp rfl
  simp [hindex p hp] at ha

theorem isWordChar_of_isDigit {c : Char} (h : c.isDigit = true) : isWordChar c = true := by
  have hne (d : Char) (hd : d.isDigit = false) : c ≠ d := by
    rintro rfl
    simp [h] at hd
  simp [isWordChar, isAsmSpace, hne ' ' rfl, hne '\t' rfl, hne ',' rfl]

theorem digitValue_of_isDigit {c : Char} (h : c.isDigit = true) : digitValue c = some (c.toNat - '0'.toNat) := by
  rw [Char.isDigit, Bool.and_eq_true, decide_eq_true_eq, decide_eq_true_eq] at h
  exact if_pos h

/-- Decimal digits parse to the number they are the digits of. -/
theorem parseDigits_ten {ds : List Char} (h : ∀ c ∈ ds, c.isDigit = true) (acc : Nat) :
    parseDigits 10 acc ds = some (Nat.ofDigitChars 10 ds acc) := by
  induction ds generalizing acc with
  | nil => rfl
  | cons c ds ih =>
    obtain ⟨hc, hds⟩ := List.forall_mem_cons.1 h
    have hlt : c.toNat - '0'.toNat < 10 := by
      have hle : c.toNat ≤ 57 := (Char.isDigit_iff_toNat.1 hc).2
      have hzero : '0'.toNat = 48 := rfl
      omega
    rw [parseDigits, digitValue_of_isDigit hc, Nat.ofDigitChars_cons]
    simp only [if_pos hlt, ih hds]

theorem isDigit_of_mem_immText {b : Byte} {c : Char} (h : c ∈ immText b) : c.isDigit = true :=
  Nat.isDigit_of_mem_toDigits (by decide) (by decide) h

theorem isWord_immText (b : Byte) : IsWord (immText b) :=
  ⟨Nat.toDigits_ne_nil, fun _ hc => isWordChar_of_isDigit (isDigit_of_mem_immText hc)⟩

/-- A text of digits has no letter after a first 0, so it parses as a decimal number. -/
theorem parseImm_of_digits {ds : List Char} (hne : ds ≠ []) (h : ∀ c ∈ ds, c.isDigit = true) {n : Nat} (hn : n < 256)
    (hds : parseDigits 10 0 ds = some n) : parseImm ds = some (BitVec.ofNat 8 n) := by
  unfold parseImm
  split
  next => exact absurd (h 'x' (by simp)) (by decide)
  next => exact absurd (h 'b' (by simp)) (by decide)
  next =>
    obtain ⟨c, cs, rfl⟩ := List.exists_cons_of_ne_nil hne
    simp only [parseNumber, hds, if_pos hn]

theorem parseImm_immText (b : Byte) : parseImm (immText b) = some b := by
  have hvalue : parseDigits 10 0 (immText b) = some b.toNat := by
    rw [parseDigits_ten fun _ => isDigit_of_mem_immText, immText, Nat.ofDigitChars_ten_toDigits]
  rw [parseImm_of_digits (isWord_immText b).1 (fun _ => isDigit_of_mem_immText) b.isLt hvalue, BitVec.ofNat_toNat,
    BitVec.setWidth_eq]

/-! ## The line of an instruction -/

/-- What follows the mnemonic: a space, then the operand texts with a comma and a space between them (R100). -/
def operandTail : List (List Char) → List Char
  | [] => []
  | t :: ts => ' ' :: t ++ (ts.map fun u => ',' :: ' ' :: u).flatten

theorem endsWord_operandTail (ts : List (List Char)) : EndsWord (operandTail ts) := by
  cases ts with
  | nil => nofun
  | cons t ts => rintro _ ⟨⟩; rfl

theorem asmText_of_operandTexts {i : Instr} {ts : List (List Char)} (h : i.operandTexts = some ts) :
    i.asmText = some (i.opcode.mnemonic ++ operandTail ts) := by
  cases ts with
  | nil => simp [Instr.asmText, h, operandTail]
  | cons t ts => simp [Instr.asmText, h, operandTail]

theorem asmText_of_operandTexts_none {i : Instr} (h : i.operandTexts = none) : i.asmText = none := by
  simp [Instr.asmText, h]

/-- At most two operand texts that are words are the words of the text they make. -/
theorem operandWords_operandTail {ts : List (List Char)} (hlen : ts.length ≤ 2) (hts : ∀ t ∈ ts, IsWord t) :
    operandWords (operandTail ts) = some ts := by
  match ts with
  | [] => rfl
  | [t] =>
    have ht := hts t (by simp)
    simp [operandTail, operandWords, dropSpaces_space_cons, ht.dropSpaces, ht.takeWhile, ht.dropWhile, ht.1]
  | [t, u] =>
    have ht := hts t (by simp)
    have hu := hts u (by simp)
    have hend : EndsWord (',' :: ' ' :: u) := by rintro _ ⟨⟩; rfl
    have hcomma : dropSpaces (',' :: ' ' :: u) = ',' :: ' ' :: u := rfl
    have hsep : dropSeparator (',' :: ' ' :: u) = u := hu.dropSpaces
    simp [operandTail, operandWords, dropSpaces_space_cons, ht.dropSpaces_append, ht.takeWhile_append hend,
      ht.dropWhile_append hend, hcomma, hsep, hu.takeWhile, hu.dropWhile, ht.1, hu.1]

theorem isWord_mnemonic (o : Opcode) : IsWord o.mnemonic := by
  cases o <;> exact ⟨nofun, List.all_eq_true.1 rfl⟩

/-- No two rows have the same mnemonic. -/
theorem find?_mnemonic (o : Opcode) : (Opcode.all.find? fun o' => o'.mnemonic == o.mnemonic) = some o := by
  cases o <;> rfl

/-- A line of a mnemonic and operand words parses to the form they make. -/
theorem parseAsm_mnemonic_append (o : Opcode) {ts : List (List Char)} (hlen : ts.length ≤ 2)
    (hts : ∀ t ∈ ts, IsWord t) : parseAsm (o.mnemonic ++ operandTail ts) = parseForm o ts := by
  have hend := endsWord_operandTail ts
  simp only [parseAsm, (isWord_mnemonic o).dropSpaces_append, (isWord_mnemonic o).takeWhile_append hend,
    (isWord_mnemonic o).dropWhile_append hend, find?_mnemonic, operandWords_operandTail hlen hts]

/-- The operand texts of a well-formed instruction are words that make it again. -/
theorem exists_operandTexts {i : Instr} (hi : i.wellFormed = true) : ∃ ts, i.operandTexts = some ts ∧
    ts.length ≤ 2 ∧ (∀ t ∈ ts, IsWord t) ∧ parseForm i.opcode ts = some i := by
  have htext : ∀ a ∈ i.regOperands, ∃ t, regText a = some t ∧ parseReg t = some a ∧ IsWord t :=
    fun a ha => exists_regText (List.all_eq_true.1 hi a ha)
  cases i
  case hlt | ret => exact ⟨[], rfl, by decide, nofun, rfl⟩
  case ldi a b =>
    obtain ⟨t, ht, hparse, hword⟩ := htext a (by simp [Instr.regOperands])
    refine ⟨[t, immText b], by simp [Instr.operandTexts, ht], le_rfl, by simp [hword, isWord_immText], ?_⟩
    simp [parseForm, Instr.opcode, Opcode.operandCount, Opcode.build, hparse, parseImm_immText]
  case add a b | sub a b | mul a b | cmp a b =>
    obtain ⟨t, ht, hparset, hwordt⟩ := htext a (by simp [Instr.regOperands])
    obtain ⟨u, hu, hparseu, hwordu⟩ := htext b (by simp [Instr.regOperands])
    refine ⟨[t, u], by simp [Instr.operandTexts, Instr.regOperands, ht, hu], le_rfl, by simp [hwordt, hwordu], ?_⟩
    simp [parseForm, Instr.opcode, Opcode.operandCount, Opcode.build, hparset, hparseu]
  case prn a | jmp a | jeq a | jne a | push a | pop a | call a =>
    obtain ⟨t, ht, hparse, hword⟩ := htext a (by simp [Instr.regOperands])
    refine ⟨[t], by simp [Instr.operandTexts, Instr.regOperands, ht], by simp, by simp [hword], ?_⟩
    simp [parseForm, Instr.opcode, Opcode.operandCount, Opcode.build, hparse]

theorem mapM_eq_none_of_mem {α β : Type} {f : α → Option β} {l : List α} {a : α} (ha : a ∈ l) (hf : f a = none) :
    l.mapM f = none := by
  induction ha with
  | head l => simp [List.mapM_cons, hf]
  | tail b _ ih => simp [List.mapM_cons, ih]

/-- A register index above 7 leaves an instruction without operand texts. -/
theorem operandTexts_eq_none {i : Instr} (hi : i.wellFormed = false) : i.operandTexts = none := by
  obtain ⟨a, ha, hindex⟩ := List.all_eq_false.1 hi
  have hnone : regText a = none := regText_eq_none (Bool.eq_false_iff.2 hindex)
  cases i
  case ldi =>
    obtain rfl := List.mem_singleton.1 ha
    simp [Instr.operandTexts, hnone]
  all_goals exact mapM_eq_none_of_mem ha hnone

/-- Settles O8: the mnemonic and the operand texts are the words the line parses into, and each reads back as what it
spells. -/
theorem assemblerTextRoundTrip : Obligations.AssemblerTextRoundTrip := by
  refine fun i => ⟨fun hi => ?_, fun hi => asmText_of_operandTexts_none (operandTexts_eq_none hi)⟩
  obtain ⟨ts, htexts, hlen, hwords, hform⟩ := exists_operandTexts hi
  exact ⟨_, asmText_of_operandTexts htexts, (parseAsm_mnemonic_append i.opcode hlen hwords).trans hform⟩

end Sys2Proof
